-- ==== Sys2Proof/Word.lean ====
section
/-! DEFINITION. The three bit-vector types of the hardware: a register word, a bus address, a byte. -/

namespace Sys2Proof

/-- A register of the core, a bus datum or an operation word: 32 bits (R60, R62). -/
abbrev Word := BitVec 32

/-- A word address of the register space: 7 bits, 0x00 to 0x7F (R60). -/
abbrev BusAddr := BitVec 7

/-- A byte, as a byte-addressed platform bus carries it (R63). -/
abbrev Byte := BitVec 8

end Sys2Proof
end

