-- ==== Sys2Proof/Syntax.lean ====
section
/-! DEFINITION. The nine operations of the core, one constructor per row of the operation table (R95). -/

namespace Sys2Proof

/-- An operation of FM96-OPS v1 (R2, R95). -/
inductive Instr where
  /-- `SAMPLE`: the whole per-sample algorithm (R207). -/
  | sample
  /-- `OSC.SIN`: the pilot (R153). -/
  | oscSin
  /-- `OSC.HARM k`: harmonic `k`, the unsigned `ARG` field (R93, R154). -/
  | oscHarm (k : BitVec 8)
  /-- `OSC.ADV`: the phase advance (R155). -/
  | oscAdv
  /-- `BQ.PROC i`: one biquad instance, named by the whole `ARG` field (R93, R171). -/
  | bqProc (arg : BitVec 8)
  /-- `ENC.MONO` (R201). -/
  | encMono
  /-- `ENC.DIFF` (R202). -/
  | encDiff
  /-- `ENC.MIX` (R203). -/
  | encMix
  /-- `ENC.EXT` (R206). -/
  | encExt
  deriving DecidableEq, Repr

/-- The mnemonic of R95, as spec/opcode_table.json spells it. -/
def Instr.mnemonic : Instr → String
  | .sample => "SAMPLE"
  | .oscSin => "OSC.SIN"
  | .oscHarm _ => "OSC.HARM"
  | .oscAdv => "OSC.ADV"
  | .bqProc _ => "BQ.PROC"
  | .encMono => "ENC.MONO"
  | .encDiff => "ENC.DIFF"
  | .encMix => "ENC.MIX"
  | .encExt => "ENC.EXT"

end Sys2Proof
end

