-- ==== Sys2Proof/WellFormed.lean ====
section
/-! DEFINITION. Which terms of `Instr` are operations of the hardware. -/

namespace Sys2Proof

/-- `ARG[7:2]` of `BQ.PROC` is required to be 0 (R93); all 256 values of `k` are legal (R105). -/
def Instr.wellFormed : Instr → Bool
  | .bqProc arg => decide (arg.toNat ≤ 3)
  | .oscHarm _ => true
  | .sample => true
  | .oscSin => true
  | .oscAdv => true
  | .encMono => true
  | .encDiff => true
  | .encMix => true
  | .encExt => true

end Sys2Proof
end

