-- ==== Sys2Proof/Decode.lean ====
section
/-! DEFINITION. Operation words: the fields of format `OPW`, the decoder, the operation table, the encoder (R92 to R106). -/

namespace Sys2Proof

/-- Why a word is not an operation (R105). -/
inductive DecodeError where
  /-- `w[31:16]` is not zero. -/
  | upperHalfNotZero
  /-- `OPC` is unassigned. -/
  | unassignedOpcode
  /-- `ARG` is not zero where it must be. -/
  | argumentNotZero
  /-- `BQ.PROC` with `ARG > 3`. -/
  | noSuchInstance
  deriving DecidableEq, Repr

/-- The field `ZERO`, bits 31:16 (R92). -/
def zeroField (w : Word) : BitVec 16 := w.extractLsb' 16 16

/-- The field `OPC`, bits 15:8 (R92). -/
def opcField (w : Word) : BitVec 8 := w.extractLsb' 8 8

/-- The field `ARG`, bits 7:0 (R92). -/
def argField (w : Word) : BitVec 8 := w.extractLsb' 0 8

/-- An operation that takes no argument: `ARG` must be 0x00 (R92). -/
def decodeNoArg (arg : BitVec 8) (i : Instr) : Except DecodeError Instr :=
  if arg = 0 then .ok i else .error .argumentNotZero

/-- `BQ.PROC`: `ARG[7:2]` is required to be 0 (R93). -/
def decodeBqProc (arg : BitVec 8) : Except DecodeError Instr :=
  if arg.toNat ≤ 3 then .ok (.bqProc arg) else .error .noSuchInstance

/-- The operation that `OPC` and `ARG` name (R95, R96). -/
def decodeOpc (opc arg : BitVec 8) : Except DecodeError Instr :=
  if opc = 0x01 then decodeNoArg arg .sample
  else if opc = 0x10 then decodeNoArg arg .oscSin
  else if opc = 0x11 then .ok (.oscHarm arg)
  else if opc = 0x12 then decodeNoArg arg .oscAdv
  else if opc = 0x20 then decodeBqProc arg
  else if opc = 0x30 then decodeNoArg arg .encMono
  else if opc = 0x31 then decodeNoArg arg .encDiff
  else if opc = 0x32 then decodeNoArg arg .encMix
  else if opc = 0x33 then decodeNoArg arg .encExt
  else .error .unassignedOpcode

/-- `Decode(w)` of R94, total on every word, rejecting by name (R105). -/
def decode (w : Word) : Except DecodeError Instr :=
  if zeroField w = 0 then decodeOpc (opcField w) (argField w) else .error .upperHalfNotZero

/-- One row of the operation table (R95). -/
structure OpRow where
  /-- The row's mnemonic. -/
  mnemonic : String
  /-- The value the masked word must have. -/
  pattern : Word
  /-- The bits that are compared. -/
  mask : Word
  deriving DecidableEq, Repr

/-- The complete operation table of R95. -/
def opcodeTable : List OpRow :=
  [⟨"SAMPLE", 0x00000100, 0xFFFFFFFF⟩,
   ⟨"OSC.SIN", 0x00001000, 0xFFFFFFFF⟩,
   ⟨"OSC.HARM", 0x00001100, 0xFFFFFF00⟩,
   ⟨"OSC.ADV", 0x00001200, 0xFFFFFFFF⟩,
   ⟨"BQ.PROC", 0x00002000, 0xFFFFFFFC⟩,
   ⟨"ENC.MONO", 0x00003000, 0xFFFFFFFF⟩,
   ⟨"ENC.DIFF", 0x00003100, 0xFFFFFFFF⟩,
   ⟨"ENC.MIX", 0x00003200, 0xFFFFFFFF⟩,
   ⟨"ENC.EXT", 0x00003300, 0xFFFFFFFF⟩]

/-- "the row is selected when `w & mask = match`" (R95). -/
def OpRow.selects (row : OpRow) (w : Word) : Bool := w &&& row.mask == row.pattern

/-- The format `OPW` (R92): `ZERO`, `OPC`, `ARG` from the high end down. -/
def opw (opc arg : BitVec 8) : Word := (0 : BitVec 16) ++ opc ++ arg

/-- The operation word of an operation (R95). -/
def encode : Instr → Word
  | .sample => opw 0x01 0
  | .oscSin => opw 0x10 0
  | .oscHarm k => opw 0x11 k
  | .oscAdv => opw 0x12 0
  | .bqProc arg => opw 0x20 arg
  | .encMono => opw 0x30 0
  | .encDiff => opw 0x31 0
  | .encMix => opw 0x32 0
  | .encExt => opw 0x33 0

/-- What the decoder reads from the operation word whose low `nbits` bits are those of `w`, the rest zero. -/
def decodeTableWord (nbits w : Nat) : Option Instr := (decode (BitVec.ofNat 32 (w % 2 ^ nbits))).toOption

end Sys2Proof
end

