-- ==== Sys2Proof/Machine/State.lean ====
section
/-! DEFINITION. The state of the core and its host interface as plain data, and the state after reset (R20 to R56). -/

namespace Sys2Proof.Machine

/-- The twelve value registers by name; constructor number `i` is `V[i]` (R21). -/
inductive VReg where
  | leftRaw | rightRaw | externalMpx | preL | preR | lpL | lpR | mono | diff | pilot | subcarrier | composite
  deriving DecidableEq, Repr

/-- The contents of the value registers, of type `F` (R21). -/
structure Values (F : Type) where
  leftRaw : F
  rightRaw : F
  externalMpx : F
  preL : F
  preR : F
  lpL : F
  lpR : F
  mono : F
  diff : F
  pilot : F
  subcarrier : F
  composite : F
  deriving DecidableEq, Repr

/-- The four biquad instances `BQ[0..3]` (R40). -/
inductive BqInst where
  /-- `BQ[0]`, preemphasis-L. -/
  | preemphL
  /-- `BQ[1]`, preemphasis-R. -/
  | preemphR
  /-- `BQ[2]`, lowpass-L. -/
  | lowpassL
  /-- `BQ[3]`, lowpass-R. -/
  | lowpassR
  deriving DecidableEq, Repr

/-- The nine registers of one instance by name (R40). -/
inductive BqReg where
  | b0 | b1 | b2 | a1 | a2 | x1 | x2 | y1 | y2
  deriving DecidableEq, Repr

/-- The nine registers of one instance: five coefficients, four history values (R40 to R42). -/
structure Biquad (F : Type) where
  b0 : F
  b1 : F
  b2 : F
  a1 : F
  a2 : F
  x1 : F
  x2 : F
  y1 : F
  y2 : F
  deriving DecidableEq, Repr

/-- The four instances, each with its own registers (R43). -/
structure Biquads (F : Type) where
  preemphL : Biquad F
  preemphR : Biquad F
  lowpassL : Biquad F
  lowpassR : Biquad F
  deriving DecidableEq, Repr

/-- What the operations of the core act on, over the value type `F` of the numerics record (R20, R120). -/
structure Datapath (F : Type) where
  /-- The model's own: how many NaN draws have been numbered so far (R128; log entry 3). -/
  draws : Nat
  /-- The value registers (R21). -/
  v : Values F
  /-- `PHASE` (R34). -/
  phase : F
  /-- `PHASE_INC` (R35). -/
  phaseInc : F
  /-- The biquad instances (R40). -/
  bq : Biquads F
  /-- `UPC`, the hidden position of the sequencer inside `SAMPLE` (R27, R47). -/
  upc : BitVec 4
  deriving DecidableEq, Repr

/-- The fields of `CTRL` (R30); bits 31:3 are not stored. -/
structure Ctrl where
  run : Bool
  stereo : Bool
  extEn : Bool
  deriving DecidableEq, Repr

/-- The fields of `STATUS` (R32); bits 31:5 are not stored. -/
structure Status where
  busy : Bool
  errOp : Bool
  errLock : Bool
  errNrun : Bool
  errAddr : Bool
  deriving DecidableEq, Repr

/-- One action of the host on the core: a bus access or reset, and nothing else (R9, R70). -/
inductive HostAction where
  /-- `BusRead(a)` (R66). -/
  | read (a : BusAddr)
  /-- `BusWrite(a, w)` (R67). -/
  | write (a : BusAddr) (w : Word)
  /-- The pin `rst` is taken high and then low again (R260). -/
  | reset
  deriving DecidableEq, Repr

/-- What the pins `ack` and `rdata` say of the latest step (R82; log entry 8). -/
inductive BusReply where
  /-- No access was completed. -/
  | quiet
  /-- A write was completed. -/
  | ack
  /-- A read was completed with this data. -/
  | data (w : Word)
  deriving DecidableEq, Repr

/-- The machine: the core's 52 registers (R20), its hidden state (R47), and the host's side of the bus. -/
structure State where
  /-- The registers the operations compute on. -/
  dp : Datapath Word
  /-- `CTRL` (R30). -/
  ctrl : Ctrl
  /-- `STATUS` (R32). -/
  status : Status
  /-- The model's own: the host's actions not yet performed, oldest first (R75; log entry 1). -/
  pending : List HostAction
  /-- The answer of the bus to the latest step (R82; log entry 8). -/
  reply : BusReply
  deriving DecidableEq, Repr

/-- The reasons for a fault: none. "No operation of the core raises a synchronous exception" (R230), and nothing in
this hardware is treated as fault or stuck (spec/93_implementation_defined.md, section 1; log entry 11). -/
inductive Fault where
  deriving DecidableEq, Repr

/-- The reasons for a refusal by the model. -/
inductive Refusal where
  /-- Raised only by an arm of `exec` whose instruction has no meaning yet; safe. No arm raises it in this model. -/
  | notModelled (mnemonic : String)
  deriving DecidableEq, Repr

/-- Every value register at `x`. -/
def Values.const {F : Type} (x : F) : Values F := ⟨x, x, x, x, x, x, x, x, x, x, x, x⟩

/-- Every register of an instance at `x`. -/
def Biquad.const {F : Type} (x : F) : Biquad F := ⟨x, x, x, x, x, x, x, x, x⟩

/-- Every register of every instance at `x`. -/
def Biquads.const {F : Type} (x : F) : Biquads F := ⟨.const x, .const x, .const x, .const x⟩

/-- The datapath after reset, `z` being the zero of the value type (R52). -/
def Datapath.reset {F : Type} (z : F) : Datapath F :=
  { draws := 0, v := .const z, phase := z, phaseInc := z, bq := .const z, upc := 0 }

/-- The machine right after reset (R52): all registers zero but `CTRL.STEREO`, in the CONFIG phase, idle. -/
def State.reset : State where
  dp := .reset 0x00000000
  ctrl := { run := false, stereo := true, extEn := false }
  status := { busy := false, errOp := false, errLock := false, errNrun := false, errAddr := false }
  pending := []
  reply := .quiet

end Sys2Proof.Machine
end

