-- ==== Sys2Proof/Machine/Flags.lean ====
section
/-! DEFINITION. The sticky flags, and `CTRL` and `STATUS` as words (R30, R32, R45). No arithmetic touches a flag (R131). -/

namespace Sys2Proof.Machine

/-- The four sticky flags, the only flags of the hardware (R45, R231). -/
inductive ErrFlag where
  /-- A word that is not an operation was written to `CMD`. -/
  | errOp
  /-- A locked register was written in the RUN phase. -/
  | errLock
  /-- An operation was requested in the CONFIG phase. -/
  | errNrun
  /-- `STATUS` or a reserved address was written. -/
  | errAddr
  deriving DecidableEq, Repr

/-- `STATUS.FLAG <- 1` (R234). -/
def Status.raise (f : ErrFlag) (st : Status) : Status :=
  match f with
  | .errOp => { st with errOp := true }
  | .errLock => { st with errLock := true }
  | .errNrun => { st with errNrun := true }
  | .errAddr => { st with errAddr := true }

/-- Is the flag set? -/
def Status.has (f : ErrFlag) (st : Status) : Bool :=
  match f with
  | .errOp => st.errOp
  | .errLock => st.errLock
  | .errNrun => st.errNrun
  | .errAddr => st.errAddr

/-- `zext_32(EXT_EN ++ STEREO ++ RUN)` (R66). -/
def Ctrl.word (c : Ctrl) : Word :=
  BitVec.zeroExtend 32 (BitVec.ofBool c.extEn ++ BitVec.ofBool c.stereo ++ BitVec.ofBool c.run)

/-- `zext_32(ERR_ADDR ++ ERR_NRUN ++ ERR_LOCK ++ ERR_OP ++ BUSY)` (R66). -/
def Status.word (st : Status) : Word :=
  BitVec.zeroExtend 32
    (BitVec.ofBool st.errAddr ++ BitVec.ofBool st.errNrun ++ BitVec.ofBool st.errLock ++ BitVec.ofBool st.errOp ++
      BitVec.ofBool st.busy)

/-- What a write of `w` stores in `CTRL` in the CONFIG phase: `STEREO` and `EXT_EN` from `w`, `RUN` set or left (R31). -/
def Ctrl.written (w : Word) (c : Ctrl) : Ctrl :=
  { stereo := w.getLsbD 1, extEn := w.getLsbD 2, run := c.run || w.getLsbD 0 }

end Sys2Proof.Machine
end

