-- ==== Sys2Proof/Config.lean ====
section
/-! DEFINITION. What one implementation fixes or leaves free: the sine of the hardware and the choice of a NaN.
Both are constants without a body, so that nothing can be proved of their values (log entries 3 and 4). -/

namespace Sys2Proof

/-- FREE VALUE (log entry 3, safe). The pattern from which the `n`-th NaN that the arithmetic produces is taken;
R128 fixes no sign, payload or quiet bit. -/
opaque Config.freeNaN : Nat → BitVec 32

/-- FREE VALUE (log entry 4, safe). The open parameter `SIN` of R130, before properties S2, S3 and S5 are imposed
on it (by `Machine.B32.fsin`). -/
opaque Config.sin : BitVec 32 → BitVec 32

end Sys2Proof
end

