-- ==== Sys2Proof/Machine/Binary32.lean ====
section
/-! DEFINITION. The arithmetic of the hardware, IEEE 754 binary32 rounded to nearest even (R90, R122 to R130).
A finite datum is an exact integer multiple of 2^-149, so every operation is computed exactly on integers and then
rounded once, in `roundMag`. A factor 2^n stands on the left, where the kernel does not count it down. The seven members
of the numerics record are irreducible: no proof about the state should compute a rounding. Use their laws, or `unfold`. -/

namespace Sys2Proof.Machine.B32

/-- The pattern of +0.0 (R91). -/
def posZero : Word := 0x00000000

/-- The pattern of −0.0 (R91). -/
def negZero : Word := 0x80000000

/-- The pattern of infinity without its sign (R90: exponent field 255, fraction 0). -/
def infMag : Nat := 0x7F800000

/-- The sign bit, bit 31 (R90). -/
def isNeg (w : Word) : Bool := decide (2 ^ 31 ≤ w.toNat)

/-- Bits 30:0: exponent field and fraction together. -/
def mag (w : Word) : Nat := w.toNat % 2 ^ 31

/-- The biased exponent, bits 30:23 (R90). -/
def expField (w : Word) : Nat := mag w / 2 ^ 23

/-- The fraction, bits 22:0 (R90). -/
def fracField (w : Word) : Nat := mag w % 2 ^ 23

/-- `e = 255, f ≠ 0` (R90). -/
def isNaN (w : Word) : Bool := expField w == 255 && fracField w != 0

/-- `e = 255, f = 0` (R90). -/
def isInf (w : Word) : Bool := expField w == 255 && fracField w == 0

/-- Neither an infinity nor a NaN (R90). -/
def isFinite (w : Word) : Bool := expField w != 255

/-- `±0.0` (R90). -/
def isZero (w : Word) : Bool := mag w == 0

/-- The magnitude that bits 30:0 encode, in units of 2^-149 (R90): a subnormal is `f`, a normal `(2^23 + f)·2^(e-1)`.
At infinity it gives a number above every finite one, which is all that `fge` needs of it (R125). -/
def magUnits (m : Nat) : Nat :=
  if m / 2 ^ 23 = 0 then m % 2 ^ 23 else (2 ^ 23 + m % 2 ^ 23) * 2 ^ (m / 2 ^ 23 - 1)

/-- The magnitude of a datum in units of 2^-149 (R90). -/
def units (w : Word) : Nat := magUnits (mag w)

/-- The real value of a finite datum, in units of 2^-149 (R90). -/
def value (w : Word) : Int := if isNeg w then -(units w : Int) else (units w : Int)

/-- `n / 2^sh` to the nearest integer, ties to even (R122). -/
def roundShift (n sh : Nat) : Nat :=
  let q := n / 2 ^ sh
  let r := n % 2 ^ sh
  if 2 ^ sh < 2 * r ∨ (2 * r = 2 ^ sh ∧ q % 2 = 1) then q + 1 else q

/-- The bits 30:0 of the binary32 magnitude nearest to `n · 2^-(149+k)`, ties to even, infinity when it is too large
(R123). `sh` low bits of `n` are dropped: enough to leave 24 significant ones, and at least the `k` below the
subnormal grid. A carry out of the fraction moves into the exponent field by itself. -/
def roundMag (n k : Nat) : Nat :=
  let sh := max k (Nat.log2 n - 23)
  min (2 ^ 23 * (sh - k) + roundShift n sh) infMag

/-- The word of a sign and the bits 30:0. -/
def pack (neg : Bool) (m : Nat) : Word := BitVec.ofNat 32 (if neg then 2 ^ 31 + m else m)

/-- A free pattern taken as a NaN: itself if it is one. Every NaN is some free pattern's image (R128). -/
def asNaN (r : Word) : Word := if isNaN r then r else 0x7FC00000

/-- The NaN drawn at index `d` (R128, I5; log entry 3). -/
def drawNaN (d : Nat) : Word := asNaN (Config.freeNaN d)

/-- `−a`: the sign bit turned over, a NaN's too. -/
def fneg (a : Word) : Word := pack (!isNeg a) (mag a)

/-- The exact sum of two finite data, rounded once; the sign of a zero sum is R123's. -/
def addFinite (a b : Word) : Word :=
  let z := value a + value b
  if z = 0 then (if isNeg a && isNeg b then negZero else posZero) else pack (decide (z < 0)) (roundMag z.natAbs 0)

/-- `fadd` (R123, R128). -/
@[irreducible] def fadd (d : Nat) (a b : Word) : Word :=
  if isNaN a || isNaN b then drawNaN d
  else if isInf a then (if isInf b && isNeg a != isNeg b then drawNaN d else a)
  else if isInf b then b
  else addFinite a b

/-- `fsub(a,b)`, the difference `a − b` (R120, R123): the sum with `b`'s sign turned over (log entry 16). -/
@[irreducible] def fsub (d : Nat) (a b : Word) : Word := fadd d a (fneg b)

/-- `fmul` (R123, R128): the sign is the exclusive-or of the operands' signs, also for zeros and infinities. -/
@[irreducible] def fmul (d : Nat) (a b : Word) : Word :=
  if isNaN a || isNaN b then drawNaN d
  else if isInf a || isInf b then
    (if isZero a || isZero b then drawNaN d else pack (isNeg a != isNeg b) infMag)
  else pack (isNeg a != isNeg b) (roundMag (units a * units b) 149)

/-- `fhalf` (R124): the exact half, rounded once. -/
@[irreducible] def fhalf (d : Nat) (a : Word) : Word :=
  if isNaN a then drawNaN d else if isInf a then a else pack (isNeg a) (roundMag (units a) 1)

/-- `fge` (R125): false with a NaN operand; the two zeros are equal; infinities are beyond every finite number. -/
@[irreducible] def fge (a b : Word) : Bool := !isNaN a && !isNaN b && decide (value b ≤ value a)

/-- The binary32 datum nearest to the natural number `n`, ties to even. -/
def ofNat (n : Nat) : Word := pack false (roundMag (2 ^ 149 * n) 0)

/-- `fofnat` (R126). -/
@[irreducible] def fofnat (k : BitVec 8) : Word := ofNat k.toNat

/-- The binary32 datum nearest to `±num/den`, ties to even (R109 `WRF`): 200 binary places and a sticky bit for the
rest decide the rounding. DESIGN CHOICE (log entry 19), where R109 does not say which pattern it is: a negative literal
that is zero or rounds to zero gives `−0.0`, a magnitude of at least `2^128 − 2^103` gives the infinity of its sign. -/
def ofRatio (neg : Bool) (num den : Nat) : Word :=
  let q := 2 ^ 200 * num / den
  let sticky := if 2 ^ 200 * num % den = 0 then 0 else 1
  pack neg (roundMag (2 * q + sticky) 52)

/-- A free pattern taken as a finite datum of magnitude at most 1: itself if it is one (S3 of R130). -/
def asUnit (r : Word) : Word := if units r ≤ units 0x3F800000 then r else posZero

/-- `fsin`: the open parameter `SIN` under properties S2, S3 and S5 of R130 (log entry 4). It depends on the pattern
alone (S1). Property S4 is the premise `SinAccurate` of Sys2Proof/Safety.lean. -/
@[irreducible] def fsin (a : Word) : Word :=
  if isFinite a then (if isZero a then a else asUnit (Config.sin a)) else asNaN (Config.sin a)

/-- `C_2PI` (R127). -/
def c2pi : Word := 0x40C90FDB

/-- `C_045` (R127). -/
def c045 : Word := 0x3EE66666

/-- `C_009` (R127). -/
def c009 : Word := 0x3DB851EC

end Sys2Proof.Machine.B32
end

