-- ==== Sys2Proof/Machine/Numerics.lean ====
section
/-! DEFINITION. The numerics record `N`, the only arithmetic any rule uses, and the hardware's instance of it (R120, R122). -/

namespace Sys2Proof.Machine

/-- The record `N` (R120). The first argument of a member that may produce a NaN is the index of the NaN it then
draws (log entry 3); an instance without NaNs ignores it. -/
structure Numerics (F : Type) where
  fadd : Nat → F → F → F
  fsub : Nat → F → F → F
  fmul : Nat → F → F → F
  fhalf : Nat → F → F
  fsin : F → F
  fge : F → F → Bool
  fofnat : BitVec 8 → F
  cZero : F
  c2pi : F
  c045 : F
  c009 : F

/-- The instance `N_b32`, the numerics of the hardware (R122). -/
def b32 : Numerics Word where
  fadd := B32.fadd
  fsub := B32.fsub
  fmul := B32.fmul
  fhalf := B32.fhalf
  fsin := B32.fsin
  fge := B32.fge
  fofnat := B32.fofnat
  cZero := B32.posZero
  c2pi := B32.c2pi
  c045 := B32.c045
  c009 := B32.c009

end Sys2Proof.Machine
end

