-- ==== Sys2Proof/Machine/Operands.lean ====
section
/-! DEFINITION. The operands: value registers, instances and their registers by name and by number (R21, R40, R93),
the registers an instance works between (R172), and the address map of the register space (R61, R66, R68). -/

namespace Sys2Proof.Machine

variable {F : Type}

/-- `V[i]` by its name (R11, R21). -/
def Values.get (v : Values F) : VReg → F
  | .leftRaw => v.leftRaw
  | .rightRaw => v.rightRaw
  | .externalMpx => v.externalMpx
  | .preL => v.preL
  | .preR => v.preR
  | .lpL => v.lpL
  | .lpR => v.lpR
  | .mono => v.mono
  | .diff => v.diff
  | .pilot => v.pilot
  | .subcarrier => v.subcarrier
  | .composite => v.composite

/-- `V[i] <- x` by its name (R11, R21). -/
def Values.set (v : Values F) (r : VReg) (x : F) : Values F :=
  match r with
  | .leftRaw => { v with leftRaw := x }
  | .rightRaw => { v with rightRaw := x }
  | .externalMpx => { v with externalMpx := x }
  | .preL => { v with preL := x }
  | .preR => { v with preR := x }
  | .lpL => { v with lpL := x }
  | .lpR => { v with lpR := x }
  | .mono => { v with mono := x }
  | .diff => { v with diff := x }
  | .pilot => { v with pilot := x }
  | .subcarrier => { v with subcarrier := x }
  | .composite => { v with composite := x }

/-- A register of an instance (R40). -/
def Biquad.get (b : Biquad F) : BqReg → F
  | .b0 => b.b0
  | .b1 => b.b1
  | .b2 => b.b2
  | .a1 => b.a1
  | .a2 => b.a2
  | .x1 => b.x1
  | .x2 => b.x2
  | .y1 => b.y1
  | .y2 => b.y2

/-- A write of a register of an instance (R40). -/
def Biquad.set (b : Biquad F) (r : BqReg) (x : F) : Biquad F :=
  match r with
  | .b0 => { b with b0 := x }
  | .b1 => { b with b1 := x }
  | .b2 => { b with b2 := x }
  | .a1 => { b with a1 := x }
  | .a2 => { b with a2 := x }
  | .x1 => { b with x1 := x }
  | .x2 => { b with x2 := x }
  | .y1 => { b with y1 := x }
  | .y2 => { b with y2 := x }

/-- The instance `BQ[i]` (R40). -/
def Biquads.get (q : Biquads F) : BqInst → Biquad F
  | .preemphL => q.preemphL
  | .preemphR => q.preemphR
  | .lowpassL => q.lowpassL
  | .lowpassR => q.lowpassR

/-- `BQ[i]` replaced whole; the others keep their registers (R43). -/
def Biquads.set (q : Biquads F) (i : BqInst) (b : Biquad F) : Biquads F :=
  match i with
  | .preemphL => { q with preemphL := b }
  | .preemphR => { q with preemphR := b }
  | .lowpassL => { q with lowpassL := b }
  | .lowpassR => { q with lowpassR := b }

/-- Value register number `n` (R21). -/
def vregOfNat : Nat → Option VReg
  | 0 => some .leftRaw
  | 1 => some .rightRaw
  | 2 => some .externalMpx
  | 3 => some .preL
  | 4 => some .preR
  | 5 => some .lpL
  | 6 => some .lpR
  | 7 => some .mono
  | 8 => some .diff
  | 9 => some .pilot
  | 10 => some .subcarrier
  | 11 => some .composite
  | _ => none

/-- The number of a value register (R21). -/
def vregNumber : VReg → Nat
  | .leftRaw => 0
  | .rightRaw => 1
  | .externalMpx => 2
  | .preL => 3
  | .preR => 4
  | .lpL => 5
  | .lpR => 6
  | .mono => 7
  | .diff => 8
  | .pilot => 9
  | .subcarrier => 10
  | .composite => 11

/-- Instance number `n` (R40). -/
def instOfNat : Nat → Option BqInst
  | 0 => some .preemphL
  | 1 => some .preemphR
  | 2 => some .lowpassL
  | 3 => some .lowpassR
  | _ => none

/-- The number of an instance (R40). -/
def instNumber : BqInst → Nat
  | .preemphL => 0
  | .preemphR => 1
  | .lowpassL => 2
  | .lowpassR => 3

/-- The register of an instance at an offset; offsets 0x5 to 0x7 and 0xC to 0xF are reserved (R40). -/
def bqRegOfOffset : Nat → Option BqReg
  | 0x0 => some .b0
  | 0x1 => some .b1
  | 0x2 => some .b2
  | 0x3 => some .a1
  | 0x4 => some .a2
  | 0x8 => some .x1
  | 0x9 => some .x2
  | 0xA => some .y1
  | 0xB => some .y2
  | _ => none

/-- The offset of a register in its instance (R40). -/
def bqRegOffset : BqReg → Nat
  | .b0 => 0x0
  | .b1 => 0x1
  | .b2 => 0x2
  | .a1 => 0x3
  | .a2 => 0x4
  | .x1 => 0x8
  | .x2 => 0x9
  | .y1 => 0xA
  | .y2 => 0xB

/-- `SRC(i)`: the value register an instance takes `x` from (R172). -/
def bqSource : BqInst → VReg
  | .preemphL => .leftRaw
  | .preemphR => .rightRaw
  | .lowpassL => .preL
  | .lowpassR => .preR

/-- `DST(i)`: the value register an instance delivers `y` to (R172). -/
def bqDest : BqInst → VReg
  | .preemphL => .preL
  | .preemphR => .preR
  | .lowpassL => .lpL
  | .lowpassR => .lpR

/-- What a bus address names (R61). -/
inductive BusReg where
  | ctrl
  | status
  | cmd
  | phase
  | phaseInc
  | value (r : VReg)
  | bq (i : BqInst) (r : BqReg)
  | reserved
  deriving DecidableEq, Repr

/-- The register an address in 0x20 to 0x5F names: `i = (a - 0x20)[5:4]`, offset `a[3:0]` (R66). -/
def bqBusReg (n : Nat) : BusReg :=
  match instOfNat ((n - 0x20) / 0x10), bqRegOfOffset (n % 0x10) with
  | some i, some r => .bq i r
  | _, _ => .reserved

/-- The address map (R61, R68). -/
def busReg (a : BusAddr) : BusReg :=
  let n := a.toNat
  if n = 0x00 then .ctrl
  else if n = 0x01 then .status
  else if n = 0x02 then .cmd
  else if n = 0x04 then .phase
  else if n = 0x05 then .phaseInc
  else if 0x10 ≤ n ∧ n ≤ 0x1B then
    match vregOfNat (n - 0x10) with
    | some r => .value r
    | none => .reserved
  else if 0x20 ≤ n ∧ n ≤ 0x5F then bqBusReg n
  else .reserved

/-- The address of a register (R61); a reserved address stands for itself in no script, 0x7F is one of them. -/
def busAddrOf : BusReg → BusAddr
  | .ctrl => 0x00
  | .status => 0x01
  | .cmd => 0x02
  | .phase => 0x04
  | .phaseInc => 0x05
  | .value r => BitVec.ofNat 7 (0x10 + vregNumber r)
  | .bq i r => BitVec.ofNat 7 (0x20 + 0x10 * instNumber i + bqRegOffset r)
  | .reserved => 0x7F

/-- The locked registers: `CTRL`, `PHASE`, `PHASE_INC` and all registers of the instances (R50). -/
def lockedReg : BusReg → Bool
  | .ctrl => true
  | .phase => true
  | .phaseInc => true
  | .bq _ _ => true
  | .status => false
  | .cmd => false
  | .value _ => false
  | .reserved => false

end Sys2Proof.Machine
end

