-- ==== Sys2Proof/Machine/Ops.lean ====
section
/-! DEFINITION. The shared operations: refusing an action, running an operation, reset, reading and storing a register.
The core takes no exception and returns from none (R230, R235, R236); `refuse` stands where another machine would trap. -/

namespace Sys2Proof.Machine

/-- What a meaning answers. -/
abbrev Result := Host.Outcome State Fault Refusal

/-- `refuse(FLAG)`: the flag is set and nothing else changes (R12, R234). -/
def refuse (f : ErrFlag) (s : State) : State := { s with status := s.status.raise f }

/-- `STATUS.BUSY <- b` (R32). -/
def setBusy (b : Bool) (s : State) : State := { s with status := { s.status with busy := b } }

/-- An operation executes to completion: `BUSY` is 1 while it does (R32, R75). -/
def operate (op : Datapath Word → Datapath Word) (s : State) : State :=
  let s := setBusy true s
  setBusy false { s with dp := op s.dp }

/-- The refusal test of every operation: in the CONFIG phase it is `refuse(ERR_NRUN)` (R94, R240). -/
def request (op : Datapath Word → Datapath Word) (s : State) : Result :=
  if s.ctrl.run then .next (operate op s) else .next (refuse .errNrun s)

/-- Reset: every register at its reset value (R52, R260). The host's further actions stay, and so does the number of
NaNs drawn, which is no register (log entries 1, 3 and 7). -/
def resetCore (s : State) : State :=
  { State.reset with dp := { State.reset.dp with draws := s.dp.draws }, pending := s.pending }

/-- The contents of what an address names; `CMD` and reserved addresses read 0 (R66). -/
def readReg (r : BusReg) (s : State) : Word :=
  match r with
  | .ctrl => s.ctrl.word
  | .status => s.status.word
  | .cmd => 0
  | .phase => s.dp.phase
  | .phaseInc => s.dp.phaseInc
  | .value v => s.dp.v.get v
  | .bq i q => (s.dp.bq.get i).get q
  | .reserved => 0

/-- A word stored in what an address names, where it names storage that the host can write (R31, R50, R67). -/
def storeReg (r : BusReg) (w : Word) (s : State) : State :=
  match r with
  | .ctrl => { s with ctrl := s.ctrl.written w }
  | .phase => { s with dp := { s.dp with phase := w } }
  | .phaseInc => { s with dp := { s.dp with phaseInc := w } }
  | .value v => { s with dp := { s.dp with v := s.dp.v.set v w } }
  | .bq i q => { s with dp := { s.dp with bq := s.dp.bq.set i ((s.dp.bq.get i).set q w) } }
  | .status => s
  | .cmd => s
  | .reserved => s

end Sys2Proof.Machine
end

