-- ==== Sys2Proof/Machine/BiquadEngine.lean ====
section
/-! DEFINITION. The Biquad engine: `BQ.PROC i` (R170 to R177), over any numerics record. -/

namespace Sys2Proof.Machine

variable {F : Type}

/-- The output of an instance for the input `x`: five products and four sums in the order of R171, each rounded once
(R135). `d` is the index of the first of its nine NaN draws. DEDUCED (log entry 17): R171 holds with all-zero
coefficients too (R176), where the zero it gives may be `−0.0`, which R52 and R175 (b) remark is `+0.0`. -/
def bqOutput (N : Numerics F) (d : Nat) (b : Biquad F) (x : F) : F :=
  let p0 := N.fmul d b.b0 x
  let p1 := N.fmul (d + 1) b.b1 b.x1
  let p2 := N.fmul (d + 2) b.b2 b.x2
  let q1 := N.fmul (d + 3) b.a1 b.y1
  let q2 := N.fmul (d + 4) b.a2 b.y2
  let s1 := N.fadd (d + 5) p0 p1
  let s2 := N.fadd (d + 6) s1 p2
  let s3 := N.fsub (d + 7) s2 q1
  N.fsub (d + 8) s3 q2

/-- The instance after it has taken `x` and delivered `y` (R171). -/
def bqShift (b : Biquad F) (x y : F) : Biquad F := { b with x2 := b.x1, x1 := x, y2 := b.y1, y1 := y }

/-- One sample through instance `i` (R171, R172). -/
def bqProc (N : Numerics F) (i : BqInst) (m : Datapath F) : Datapath F :=
  let b := m.bq.get i
  let x := m.v.get (bqSource i)
  let y := bqOutput N m.draws b x
  { m with bq := m.bq.set i (bqShift b x y), v := m.v.set (bqDest i) y, draws := m.draws + 9 }

/-- `BQ.PROC i`: "`ERR_NRUN` in the CONFIG phase, `ERR_OP` if `ARG > 3`" (R171), `ERR_OP` first (R233). -/
def execBqProc (arg : BitVec 8) (s : State) : Result :=
  match instOfNat arg.toNat with
  | some i => request (bqProc b32 i) s
  | none => .next (refuse .errOp s)

end Sys2Proof.Machine
end

