-- ==== Sys2Proof/Machine/Encoder.lean ====
section
/-! DEFINITION. The Stereo encoder's arithmetic: `ENC.MONO`, `ENC.DIFF`, `ENC.MIX`, `ENC.EXT` (R200 to R206). -/

namespace Sys2Proof.Machine

variable {F : Type}

/-- `mono <- fhalf(fadd(lpL, lpR))` (R201). -/
def encMono (N : Numerics F) (m : Datapath F) : Datapath F :=
  let sum := N.fadd m.draws m.v.lpL m.v.lpR
  { m with v := { m.v with mono := N.fhalf (m.draws + 1) sum }, draws := m.draws + 2 }

/-- `diff <- fhalf(fsub(lpL, lpR))` (R202). -/
def encDiff (N : Numerics F) (m : Datapath F) : Datapath F :=
  let difference := N.fsub m.draws m.v.lpL m.v.lpR
  { m with v := { m.v with diff := N.fhalf (m.draws + 1) difference }, draws := m.draws + 2 }

/-- The stereo composite `((mono·0.45) + (pilot·0.09)) + ((diff·subcarrier)·0.45)` (R203). -/
def stereoMix (N : Numerics F) (d : Nat) (v : Values F) : F :=
  let t1 := N.fmul d v.mono N.c045
  let t2 := N.fmul (d + 1) v.pilot N.c009
  let m := N.fmul (d + 2) v.diff v.subcarrier
  let t3 := N.fmul (d + 3) m N.c045
  let u := N.fadd (d + 4) t1 t2
  N.fadd (d + 5) u t3

/-- `composite` from the stereo mix, or the pattern of `mono` unchanged (R203). DEDUCED (log entry 20): in stereo the
pilot is in `composite` with all-zero coefficients too, where R265 remarks that `composite` is `+0.0` plus the external
sample. -/
def encMix (N : Numerics F) (c : Ctrl) (m : Datapath F) : Datapath F :=
  if c.stereo then
    { m with v := { m.v with composite := stereoMix N m.draws m.v }, draws := m.draws + 6 }
  else { m with v := { m.v with composite := m.v.mono } }

/-- `composite <- fadd(composite, e)` with `e` the external sample or +0.0 (R206). -/
def encExt (N : Numerics F) (c : Ctrl) (m : Datapath F) : Datapath F :=
  let e := if c.extEn then m.v.externalMpx else N.cZero
  { m with v := { m.v with composite := N.fadd m.draws m.v.composite e }, draws := m.draws + 1 }

/-- `ENC.MONO` (R201). -/
def execEncMono (s : State) : Result := request (encMono b32) s

/-- `ENC.DIFF` (R202). -/
def execEncDiff (s : State) : Result := request (encDiff b32) s

/-- `ENC.MIX` (R203). -/
def execEncMix (s : State) : Result := request (encMix b32 s.ctrl) s

/-- `ENC.EXT` (R206). -/
def execEncExt (s : State) : Result := request (encExt b32 s.ctrl) s

end Sys2Proof.Machine
end

