-- ==== Sys2Proof/Machine/Oscillator.lean ====
section
/-! DEFINITION. The Oscillator: `OSC.SIN`, `OSC.HARM k`, `OSC.ADV` (R150 to R161), over any numerics record. -/

namespace Sys2Proof.Machine

variable {F : Type}

/-- `pilot <- fsin(PHASE)` (R153). -/
def oscSin (N : Numerics F) (m : Datapath F) : Datapath F :=
  { m with v := { m.v with pilot := N.fsin m.phase } }

/-- `a <- fmul(fofnat(k), PHASE)`, `subcarrier <- fsin(a)`; `a` is not reduced modulo 2π (R154). -/
def oscHarm (N : Numerics F) (k : BitVec 8) (m : Datapath F) : Datapath F :=
  let a := N.fmul m.draws (N.fofnat k) m.phase
  { m with v := { m.v with subcarrier := N.fsin a }, draws := m.draws + 1 }

/-- The phase after one advance: add, then at most one subtraction of `C_2PI` (R155). -/
def phaseAfter (N : Numerics F) (d : Nat) (phase inc : F) : F :=
  let t := N.fadd d phase inc
  if N.fge t N.c2pi then N.fsub (d + 1) t N.c2pi else t

/-- `PHASE` advances (R155). -/
def oscAdv (N : Numerics F) (m : Datapath F) : Datapath F :=
  { m with phase := phaseAfter N m.draws m.phase m.phaseInc, draws := m.draws + 2 }

/-- `OSC.SIN` (R153). -/
def execOscSin (s : State) : Result := request (oscSin b32) s

/-- `OSC.HARM k` (R154). -/
def execOscHarm (k : BitVec 8) (s : State) : Result := request (oscHarm b32 k) s

/-- `OSC.ADV` (R155). -/
def execOscAdv (s : State) : Result := request (oscAdv b32) s

end Sys2Proof.Machine
end

