-- ==== Sys2Proof/Machine/Sample.lean ====
section
/-! DEFINITION. `SAMPLE` and its sequencer: eleven unit operations, hard-wired, counted by `UPC` (R27, R207). -/

namespace Sys2Proof.Machine

variable {F : Type}

/-- The unit operation at position `UPC` of the fixed list, "executed without its own refusal test" (R207). The
positions 11 to 15 do not occur (R27). -/
def unitOpAt (N : Numerics F) (c : Ctrl) (upc : BitVec 4) (m : Datapath F) : Datapath F :=
  match upc.toNat with
  | 0 => bqProc N .preemphL m
  | 1 => bqProc N .preemphR m
  | 2 => bqProc N .lowpassL m
  | 3 => bqProc N .lowpassR m
  | 4 => encMono N m
  | 5 => encDiff N m
  | 6 => oscSin N m
  | 7 => oscHarm N 2 m
  | 8 => encMix N c m
  | 9 => encExt N c m
  | 10 => oscAdv N m
  | _ => m

/-- "it counts 0, 1, ..., 10 and returns to 0" (R27). -/
def nextUpc (upc : BitVec 4) : BitVec 4 := if upc = 10 then 0 else upc + 1

/-- `n` positions of the sequencer. -/
def sequencer (N : Numerics F) (c : Ctrl) : Nat → Datapath F → Datapath F
  | 0, m => m
  | n + 1, m =>
    let m' := unitOpAt N c m.upc m
    sequencer N c n { m' with upc := nextUpc m.upc }

/-- The per-sample algorithm: the sequencer from position 0 through all eleven (R207). -/
def sample (N : Numerics F) (c : Ctrl) (m : Datapath F) : Datapath F := sequencer N c 11 { m with upc := 0 }

/-- `SAMPLE` (R207). -/
def execSample (s : State) : Result := request (sample b32 s.ctrl) s

end Sys2Proof.Machine
end

