-- ==== Sys2Proof/Machine/Dispatch.lean ====
section
/-! DEFINITION. One meaning per operation (R95). -/

namespace Sys2Proof.Machine

def exec (i : Instr) (s : State) : Host.Outcome State Fault Refusal :=
  match i with
  | .sample => Sys2Proof.Machine.execSample s
  | .oscSin => Sys2Proof.Machine.execOscSin s
  | .oscHarm k => Sys2Proof.Machine.execOscHarm k s
  | .oscAdv => Sys2Proof.Machine.execOscAdv s
  | .bqProc arg => Sys2Proof.Machine.execBqProc arg s
  | .encMono => Sys2Proof.Machine.execEncMono s
  | .encDiff => Sys2Proof.Machine.execEncDiff s
  | .encMix => Sys2Proof.Machine.execEncMix s
  | .encExt => Sys2Proof.Machine.execEncExt s

end Sys2Proof.Machine
end

