-- ==== Sys2Proof/Machine/Bus.lean ====
section
/-! DEFINITION. The bus: `BusRead`, `BusWrite`, `Execute` (R66, R67, R94), and one action of the host (R9, R75). -/

namespace Sys2Proof.Machine

/-- `BusRead(a)` (R66). -/
def busRead (a : BusAddr) (s : State) : Word := readReg (busReg a) s

/-- `Execute(w)`: an undecodable word is `refuse(ERR_OP)` in either phase (R94, R105). -/
def execute (w : Word) (s : State) : Result :=
  match decode w with
  | .ok i => exec i s
  | .error _ => .next (refuse .errOp s)

/-- A write to a locked register: refused in the RUN phase (R50, R67). -/
def lockedWrite (r : BusReg) (w : Word) (s : State) : Result :=
  if s.ctrl.run then .next (refuse .errLock s) else .next (storeReg r w s)

/-- `BusWrite(a, w)` (R67): a reserved or read-only address reports `ERR_ADDR`, never `ERR_LOCK`. -/
def busWrite (a : BusAddr) (w : Word) (s : State) : Result :=
  match busReg a with
  | .cmd => execute w s
  | .status => .next (refuse .errAddr s)
  | .reserved => .next (refuse .errAddr s)
  | .value r => .next (storeReg (.value r) w s)
  | .ctrl => lockedWrite .ctrl w s
  | .phase => lockedWrite .phase w s
  | .phaseInc => lockedWrite .phaseInc w s
  | .bq i r => lockedWrite (.bq i r) w s

/-- One action of the host, the rest of them being `rest`; an access is always completed, a refused one too (R234). -/
def perform (act : HostAction) (rest : List HostAction) (s : State) : Result :=
  match act with
  | .read a => .next { s with pending := rest, reply := .data (busRead a s) }
  | .write a w => busWrite a w { s with pending := rest, reply := .ack }
  | .reset => .next (resetCore { s with pending := rest })

/-- No action of the host: the core is idle and keeps its state (R249, R285). -/
def idle (s : State) : State := { s with reply := .quiet }

/-- An operation word as the host's next action on a core in the RUN phase (log entry 2). -/
def placeOperation (w : Word) (s : State) : State :=
  { s with pending := .write (busAddrOf .cmd) w :: s.pending, ctrl := { s.ctrl with run := true } }

end Sys2Proof.Machine
end

