-- ==== Sys2Proof/Machine/Step.lean ====
section
/-! DEFINITION. One step of the machine: the host's next action, with the operation it may start, to completion (R75). -/

namespace Sys2Proof.Machine

/-- The host's oldest pending action is performed; without one the core stays idle. -/
def step (s : State) : Host.Outcome State Fault Refusal :=
  match s.pending with
  | [] => .next (idle s)
  | act :: rest => perform act rest s

/-- `s` with the operation word of `nbits` low bits of `w` as the host's next write to `CMD`, in the RUN phase: the core
fetches nothing, so this stands for the host that requests it (R27; log entry 2). -/
def State.withFetchWord (s : State) (nbits w : Nat) : State := placeOperation (BitVec.ofNat 32 (w % 2 ^ nbits)) s

end Sys2Proof.Machine
end

