-- ==== Sys2Proof/Machine/Bridge.lean ====
section
/-! DEFINITION. The register space on a byte-addressed platform bus (R63, R64). The bridge is outside the core: it turns a
platform access into an action of the host, or refuses it, and then "the core never sees it". -/

namespace Sys2Proof.Machine

/-- The word address of a platform access of `size` bytes at `byteAddr`, with the register space at `base` (R63, R64).
The base is the platform's choice (R70); an access outside the window is no access to this core. -/
def bridgeAddr (base byteAddr size : Nat) : Option BusAddr :=
  if size = 4 ∧ byteAddr % 4 = 0 ∧ base ≤ byteAddr ∧ (byteAddr - base) % 4 = 0 ∧ (byteAddr - base) / 4 < 128 then
    some (BitVec.ofNat 7 ((byteAddr - base) / 4))
  else none

/-- The four bytes of a word, the one at the lowest address first: little-endian (R63). -/
def wordBytes (w : Word) : List Byte :=
  [w.extractLsb' 0 8, w.extractLsb' 8 8, w.extractLsb' 16 8, w.extractLsb' 24 8]

/-- The word that four bytes make, the first at the lowest address (R63). -/
def bytesWord : List Byte → Option Word
  | [b0, b1, b2, b3] => some (b3 ++ b2 ++ b1 ++ b0)
  | _ => none

/-- A platform read forwarded to the core, or refused (R64). -/
def bridgeRead (base byteAddr size : Nat) : Option HostAction := (bridgeAddr base byteAddr size).map .read

/-- A platform write of the given bytes forwarded to the core, or refused (R64). -/
def bridgeWrite (base byteAddr : Nat) (bytes : List Byte) : Option HostAction :=
  match bridgeAddr base byteAddr bytes.length, bytesWord bytes with
  | some a, some w => some (.write a w)
  | _, _ => none

end Sys2Proof.Machine
end

