-- ==== Sys2Proof/Machine/RealNumerics.lean ====
section
/-! DEFINITION. The instance `N_real` of the numerics record, the source's own meaning (R121), and the real value of a
binary32 datum. No step uses this file: claims about the real formulas do. -/

namespace Sys2Proof.Machine

/-- The instance `N_real` (R121): every member the exact function; it draws no NaN. -/
noncomputable def exact : Numerics ℝ where
  fadd _ a b := a + b
  fsub _ a b := a - b
  fmul _ a b := a * b
  fhalf _ a := a / 2
  fsin := Real.sin
  fge a b := decide (b ≤ a)
  fofnat k := (k.toNat : ℝ)
  cZero := 0
  c2pi := 2 * Real.pi
  c045 := 45 / 100
  c009 := 9 / 100

/-- The real value of a finite datum (R90). -/
noncomputable def realOf (w : Word) : ℝ := (B32.value w : ℝ) / 2 ^ 149

/-- `w` is the binary32 datum nearest to the real number `x`, ties to even (R122). -/
def IsNearest (x : ℝ) (w : Word) : Prop :=
  B32.isFinite w ∧
    ∀ u : Word, B32.isFinite u → |realOf w - x| ≤ |realOf u - x| ∧
      (|realOf w - x| = |realOf u - x| → realOf u ≠ realOf w → w.toNat % 2 = 0)

end Sys2Proof.Machine
end

