-- ==== Sys2Proof/Machine/Script.lean ====
section
/-! DEFINITION. Host scripts: the lines and pseudo-instructions of R108 and R109 as the host's actions, the boot sequence
of R265 and the standard configuration of R267. They are what a host may put into `State.pending`; the step knows none
of them. -/

namespace Sys2Proof.Machine

/-- A script: actions in the order the host issues them (R75). -/
abbrev Script := List HostAction

/-- A decimal literal `±num/den` (R109). -/
structure Decimal where
  neg : Bool
  num : Nat
  den : Nat
  deriving DecidableEq, Repr

/-- The five coefficients of an instance (R41). -/
structure Coefs (F : Type) where
  b0 : F
  b1 : F
  b2 : F
  a1 : F
  a2 : F
  deriving DecidableEq, Repr

/-- The pattern `p` of `WRF`: the binary32 datum nearest to the literal, ties to even (R109). The sign of a zero and a
literal beyond the finite range are the model's choice (DESIGN CHOICE, log entry 19). -/
def patternOf (d : Decimal) : Word := B32.ofRatio d.neg d.num d.den

/-- `WR reg, w` (R108). -/
def scriptWr (r : BusReg) (w : Word) : Script := [.write (busAddrOf r) w]

/-- `RD reg` (R108). -/
def scriptRd (r : BusReg) : Script := [.read (busAddrOf r)]

/-- `OP mnemonic [arg]` (R108). -/
def scriptOp (i : Instr) : Script := [.write (busAddrOf .cmd) (encode i)]

/-- `WRF reg, d` (R109). -/
def scriptWrf (r : BusReg) (d : Decimal) : Script := scriptWr r (patternOf d)

/-- `PILOT` (R109). -/
def scriptPilot : Script := scriptOp .oscSin

/-- `SUBC` (R109). -/
def scriptSubc : Script := scriptOp (.oscHarm 2)

/-- Five coefficient patterns written to an instance, in the order of `COEF` (R109). -/
def scriptLoad (i : BqInst) (c : Coefs Word) : Script :=
  scriptWr (.bq i .b0) c.b0 ++ scriptWr (.bq i .b1) c.b1 ++ scriptWr (.bq i .b2) c.b2 ++ scriptWr (.bq i .a1) c.a1 ++
    scriptWr (.bq i .a2) c.a2

/-- `COEF i, b0, b1, b2, a1, a2` (R109). -/
def scriptCoef (i : BqInst) (c : Coefs Decimal) : Script :=
  scriptWrf (.bq i .b0) c.b0 ++ scriptWrf (.bq i .b1) c.b1 ++ scriptWrf (.bq i .b2) c.b2 ++ scriptWrf (.bq i .a1) c.a1 ++
    scriptWrf (.bq i .a2) c.a2

/-- `IDENT i`: output equals input (R109). -/
def scriptIdent (i : BqInst) : Script :=
  scriptCoef i ⟨⟨false, 1, 1⟩, ⟨false, 0, 1⟩, ⟨false, 0, 1⟩, ⟨false, 0, 1⟩, ⟨false, 0, 1⟩⟩

/-- `START s, e`: `WR CTRL, zext_32(e ++ s ++ 1)` (R109). -/
def scriptStart (s e : Bool) : Script :=
  scriptWr .ctrl (BitVec.zeroExtend 32 (BitVec.ofBool e ++ BitVec.ofBool s ++ (1 : BitVec 1)))

/-- `XFER l, r`: the sample transaction without an external sample (R16, R109). -/
def scriptXfer (l r : Decimal) : Script :=
  scriptWrf (.value .leftRaw) l ++ scriptWrf (.value .rightRaw) r ++ scriptOp .sample ++ scriptRd (.value .composite)

/-- `XFER l, r, x`: the sample transaction with an external sample (R16, R109). -/
def scriptXferExt (l r x : Decimal) : Script :=
  scriptWrf (.value .leftRaw) l ++ scriptWrf (.value .rightRaw) r ++ scriptWrf (.value .externalMpx) x ++ scriptOp .sample ++
    scriptRd (.value .composite)

/-- The sample transaction (R16) with the patterns the host delivers; an external sample is written when there is one. -/
def scriptTransaction (l r : Word) (x : Option Word) : Script :=
  scriptWr (.value .leftRaw) l ++ scriptWr (.value .rightRaw) r ++ (x.map (scriptWr (.value .externalMpx))).getD [] ++
    scriptOp .sample ++ scriptRd (.value .composite)

/-- Frames per block that the host pumps; the core has no notion of a block (R284). -/
def blockFrames : Nat := 768

/-- One block of the host's loop, one transaction per frame in order (R273, R282). -/
def scriptBlock (frames : List (Word × Word × Option Word)) : Script :=
  frames.flatMap fun f => scriptTransaction f.1 f.2.1 f.2.2

/-- The eleven operations of R208, in the order of `SAMPLE`. -/
def unrolledOps : List Instr :=
  [.bqProc 0, .bqProc 1, .bqProc 2, .bqProc 3, .encMono, .encDiff, .oscSin, .oscHarm 2, .encMix, .encExt, .oscAdv]

/-- `SAMPLE.UNROLLED` (R109, R208). -/
def scriptUnrolled : Script := unrolledOps.flatMap scriptOp

/-- What the host must do after reset, without the optional step 3 (R265): increment, twenty coefficients, `CTRL`. -/
def scriptBoot (inc : Word) (preL preR lpL lpR : Coefs Word) (stereo extEn : Bool) : Script :=
  scriptWr .phaseInc inc ++ scriptLoad .preemphL preL ++ scriptLoad .preemphR preR ++ scriptLoad .lowpassL lpL ++
    scriptLoad .lowpassR lpR ++ scriptStart stereo extEn

/-- The default increment, 19 kHz at 192 kHz (R152). -/
def defaultPhaseInc : Word := 0x3F1F2C8D

/-- The default lowpass set (R191). -/
def defaultLowpass : Coefs Word := ⟨0x3D66F05A, 0x3DE6F05A, 0x3D66F05A, 0xBFD79BAF, 0x3F68F375⟩

/-- The literal preemphasis set at the defaults, which fails PC4 (R188). -/
def literalPreemphasisSet : Coefs Word := ⟨0x41A1999A, 0xC191999A, 0x00000000, 0x3F800000, 0x00000000⟩

/-- The standard configuration (R267); `pre` is the open parameter `PRE_COEF`, rounded (R187; log entry 15). -/
def scriptStandard (pre : Coefs Word) (extEn : Bool) : Script :=
  scriptBoot defaultPhaseInc pre pre defaultLowpass defaultLowpass true extEn

end Sys2Proof.Machine
end

