-- ==== Sys2Proof/Machine/Design.lean ====
section
/-! DEFINITION. What the host computes before a run, in real numbers (R152, R185 to R194): the phase increment, the
lowpass design, the constraints on the preemphasis set. The core holds only the rounded results. -/

namespace Sys2Proof.Machine

/-- `2π·F0/SampleRate` (R152). -/
noncomputable def phaseIncDesign (f0 fs : ℝ) : ℝ := 2 * Real.pi * f0 / fs

/-- `LP_COEF`, the pre-warped bilinear resonant lowpass (R190). -/
noncomputable def lowpassDesign (fs fc q : ℝ) : Coefs ℝ :=
  let w0 := 2 * Real.pi * fc / fs
  let alpha := Real.sin w0 / (2 * q)
  let a0 := 1 + alpha
  { b0 := (1 - Real.cos w0) / 2 / a0
    b1 := (1 - Real.cos w0) / a0
    b2 := (1 - Real.cos w0) / 2 / a0
    a1 := -2 * Real.cos w0 / a0
    a2 := (1 - alpha) / a0 }

/-- The literal reading of the preemphasis design, `H(s) = 1 + s·τ` transformed (R188). -/
noncomputable def literalPreemphasis (tau fs : ℝ) : Coefs ℝ :=
  let k := 2 * fs * tau
  { b0 := 1 + k, b1 := 1 - k, b2 := 0, a1 := 1, a2 := 0 }

/-- The squared magnitude response at `w` radians per sample of the transfer function
`(b0 + b1·z⁻¹ + b2·z⁻²) / (1 + a1·z⁻¹ + a2·z⁻²)` (R176). -/
noncomputable def gainSq (c : Coefs ℝ) (w : ℝ) : ℝ :=
  ((c.b0 + c.b1 * Real.cos w + c.b2 * Real.cos (2 * w)) ^ 2 + (c.b1 * Real.sin w + c.b2 * Real.sin (2 * w)) ^ 2) /
    ((1 + c.a1 * Real.cos w + c.a2 * Real.cos (2 * w)) ^ 2 + (c.a1 * Real.sin w + c.a2 * Real.sin (2 * w)) ^ 2)

/-- PC1: first order (R187). -/
def PreFirstOrder (c : Coefs ℝ) : Prop := c.b2 = 0 ∧ c.a2 = 0

/-- PC2: the bilinear transform `s = 2·fs·(1 − z⁻¹)/(1 + z⁻¹)` of `g·(1 + s·τ)/(p + r·s)`, a first-order analog function
with its zero at `-1/τ` (R187). -/
def PreBilinear (tau fs : ℝ) (c : Coefs ℝ) : Prop :=
  ∃ g p r : ℝ, g ≠ 0 ∧ p + 2 * fs * r ≠ 0 ∧ c.b0 = g * (1 + 2 * fs * tau) / (p + 2 * fs * r) ∧
    c.b1 = g * (1 - 2 * fs * tau) / (p + 2 * fs * r) ∧ c.a1 = (p - 2 * fs * r) / (p + 2 * fs * r)

/-- PC3: gain 1 at zero frequency, rising above the corner `1/(2πτ)`, which is `1/(τ·fs)` radians per sample (R187). -/
def PreRising (tau fs : ℝ) (c : Coefs ℝ) : Prop :=
  c.b0 + c.b1 = 1 + c.a1 ∧ StrictMonoOn (gainSq c) (Set.Ioo (1 / (tau * fs)) Real.pi)

/-- PC4: the pole strictly inside the unit circle (R187). -/
def PreStable (c : Coefs ℝ) : Prop := |c.a1| < 1

/-- The constraints PC1 to PC4 on the open parameter `PRE_COEF` (R187). -/
def PreCoefAdmissible (tau fs : ℝ) (c : Coefs ℝ) : Prop :=
  PreFirstOrder c ∧ PreBilinear tau fs c ∧ PreRising tau fs c ∧ PreStable c

/-- The words a host loads for real coefficients: each the nearest binary32 datum (R190). -/
def LoadsCoefs (c : Coefs ℝ) (w : Coefs Word) : Prop :=
  IsNearest c.b0 w.b0 ∧ IsNearest c.b1 w.b1 ∧ IsNearest c.b2 w.b2 ∧ IsNearest c.a1 w.a1 ∧ IsNearest c.a2 w.a2

/-- The poles of the section are strictly inside the unit circle (R187 PC4, R190, R266). -/
def StableFeedback (a1 a2 : ℝ) : Prop := |a2| < 1 ∧ |a1| < 1 + a2

/-- The five words of a set are finite (R266). -/
def FiniteCoefs (w : Coefs Word) : Prop :=
  B32.isFinite w.b0 = true ∧ B32.isFinite w.b1 = true ∧ B32.isFinite w.b2 = true ∧ B32.isFinite w.a1 = true ∧
    B32.isFinite w.a2 = true

/-- The parameters of a configuration, as the host holds them before it loads the core (R8). -/
structure HostParameters where
  sampleRate : Nat
  f0 : ℝ
  tau : ℝ
  fc : ℝ
  q : ℝ
  pre : Coefs Word
  lowpass : Coefs Word

/-- What the host validates before it loads the core; the hardware checks none of it (R266). -/
def HostParameters.Valid (p : HostParameters) : Prop :=
  0 < p.sampleRate ∧ (0 ≤ p.f0 ∧ p.f0 < p.sampleRate) ∧ (0 < p.fc ∧ p.fc < p.sampleRate / 2) ∧ 0 < p.q ∧ 0 < p.tau ∧
    FiniteCoefs p.pre ∧ FiniteCoefs p.lowpass ∧ StableFeedback (realOf p.pre.a1) (realOf p.pre.a2) ∧
    StableFeedback (realOf p.lowpass.a1) (realOf p.lowpass.a2)

/-- The defaults of R8, with the open preemphasis set (R187). -/
noncomputable def HostParameters.standard (pre : Coefs Word) : HostParameters where
  sampleRate := 192000
  f0 := 19000
  tau := 50 / 10 ^ 6
  fc := 15000
  q := 5
  pre := pre
  lowpass := defaultLowpass

end Sys2Proof.Machine
end

