-- ==== Sys2Proof/Safety.lean ====
section
/-! DEFINITION. The words claims are stated in: an idle core, a clean run, the range of the phase, what a run freezes, and
the accuracy of the sine. -/

namespace Sys2Proof.Machine

/-- No operation is in progress: `BUSY = 0` and `UPC = 0`, as every agent observes it (R27, R32, R47). -/
def State.Idle (s : State) : Prop := s.status.busy = false ∧ s.dp.upc = 0

/-- No sticky flag is set: no host action was refused since reset (R231). -/
def State.NoFlag (s : State) : Prop := ∀ f : ErrFlag, s.status.has f = false

/-- A finite datum with `0 ≤ w < C_2PI` (R34, R35). -/
def PhaseLegal (w : Word) : Prop :=
  B32.isFinite w = true ∧ 0 ≤ B32.value w ∧ B32.value w < B32.value B32.c2pi

/-- The constraints of R161 on the oscillator. -/
def State.PhaseInRange (s : State) : Prop := PhaseLegal s.dp.phase ∧ PhaseLegal s.dp.phaseInc

/-- The coefficient registers of an instance are the same (R41). -/
def SameCoefs (b c : Biquad Word) : Prop := b.b0 = c.b0 ∧ b.b1 = c.b1 ∧ b.b2 = c.b2 ∧ b.a1 = c.a1 ∧ b.a2 = c.a2

/-- The configuration of two states is the same: mode bits, increment, all coefficients (R56 (c), R275). -/
def SameConfig (s t : State) : Prop :=
  s.ctrl.stereo = t.ctrl.stereo ∧ s.ctrl.extEn = t.ctrl.extEn ∧ s.dp.phaseInc = t.dp.phaseInc ∧
    ∀ i : BqInst, SameCoefs (s.dp.bq.get i) (t.dp.bq.get i)

/-- Nothing of an instance's history is an infinity or a NaN (R276). -/
def FiniteHistory (b : Biquad Word) : Prop :=
  B32.isFinite b.x1 = true ∧ B32.isFinite b.x2 = true ∧ B32.isFinite b.y1 = true ∧ B32.isFinite b.y2 = true

/-- The value registers an operation writes: the column "written by" of R21, which R22 calls the complete list. -/
def writtenValues : Instr → List VReg
  | .sample => [.preL, .preR, .lpL, .lpR, .mono, .diff, .pilot, .subcarrier, .composite]
  | .oscSin => [.pilot]
  | .oscHarm _ => [.subcarrier]
  | .oscAdv => []
  | .bqProc arg =>
    if arg = 0 then [.preL] else if arg = 1 then [.preR] else if arg = 2 then [.lpL] else if arg = 3 then [.lpR] else []
  | .encMono => [.mono]
  | .encDiff => [.diff]
  | .encMix => [.composite]
  | .encExt => [.composite]

/-- The instances whose history an operation updates (R42, R43). -/
def writtenInstances : Instr → List BqInst
  | .sample => [.preemphL, .preemphR, .lowpassL, .lowpassR]
  | .bqProc arg =>
    if arg = 0 then [.preemphL] else if arg = 1 then [.preemphR] else if arg = 2 then [.lowpassL]
    else if arg = 3 then [.lowpassR] else []
  | .oscSin => []
  | .oscHarm _ => []
  | .oscAdv => []
  | .encMono => []
  | .encDiff => []
  | .encMix => []
  | .encExt => []

/-- The addresses of the locked registers, as R50 lists them over the map of R61. -/
def lockedAddress (n : Nat) : Prop :=
  n = 0x00 ∨ n = 0x04 ∨ n = 0x05 ∨ (0x20 ≤ n ∧ n ≤ 0x5F ∧ (n % 0x10 ≤ 0x4 ∨ (0x8 ≤ n % 0x10 ∧ n % 0x10 ≤ 0xB)))

/-- The reserved addresses, as R68 lists them. -/
def reservedAddress (n : Nat) : Prop :=
  n = 0x03 ∨ (0x06 ≤ n ∧ n ≤ 0x0F) ∨ (0x1C ≤ n ∧ n ≤ 0x1F) ∨
    (0x20 ≤ n ∧ n ≤ 0x5F ∧ ((0x5 ≤ n % 0x10 ∧ n % 0x10 ≤ 0x7) ∨ (0xC ≤ n % 0x10 ∧ n % 0x10 ≤ 0xF))) ∨
    (0x60 ≤ n ∧ n ≤ 0x7F)

/-- Twice the smallest magnitude, in units of 2^-(149+k), that rounds to infinity: half a unit in the last place above
the largest finite number (R123). -/
def twiceOverflow (k : Nat) : Int := (2 ^ 25 - 1) * 2 ^ (253 + k)

/-- `r` is the number `z · 2^-(149+k)` rounded to binary32 as R123 says: to the nearest, of two equally near ones the
one with the even fraction, and to the infinity of its sign when it is too large. -/
def RoundsTo (z : Int) (k : Nat) (r : Word) : Prop :=
  (2 * |z| < twiceOverflow k → B32.isFinite r = true ∧ ∀ u : Word, B32.isFinite u = true →
      |B32.value r * 2 ^ k - z| ≤ |B32.value u * 2 ^ k - z| ∧
        (|B32.value r * 2 ^ k - z| = |B32.value u * 2 ^ k - z| → B32.value u ≠ B32.value r → r.toNat % 2 = 0)) ∧
    (twiceOverflow k ≤ 2 * |z| → B32.isInf r = true ∧ B32.isNeg r = decide (z < 0))

/-- Property S4 of the sine, with the open bound `EPS_SIN` as an argument (R130; log entry 4). -/
def SinAccurate (eps : ℝ) : Prop :=
  ∀ a : Word, B32.isFinite a = true → 0 ≤ realOf a → realOf a ≤ 1608 → |realOf (B32.fsin a) - Real.sin (realOf a)| ≤ eps

end Sys2Proof.Machine
end

