-- ==== Sys2Proof/Certificates/Slice0/Obligations.lean ====
section
/-! DEFINITION. The statements for the provers, by family: encoding, oscillator, biquad, encoder, SAMPLE, bus, the whole
machine, numerics, the host's side. -/

open Sys2Proof
open Sys2Proof.Machine

/-! ## Encoding and dispatch -/

/-- A write of a decodable word to `CMD` runs exactly that operation; around it the step takes the access off the host's
list and acknowledges it (R75, R94). -/
def Obligations.StepRunsDecodedOperation : Prop :=
  ∀ (s : State) (w : Word) (rest : List HostAction) (i : Instr), s.pending = .write 0x02 w :: rest → decode w = .ok i →
    step s = exec i { s with pending := rest, reply := .ack }

/-- R94: an undecodable word sets `ERR_OP` in either phase; a decodable one sets `ERR_NRUN` in the CONFIG phase, and in
the RUN phase its rule runs. -/
def Obligations.DispatchTestsDecodeThenPhase : Prop :=
  ∀ (s : State) (w : Word) (rest : List HostAction), s.pending = .write 0x02 w :: rest →
    let a : State := { s with pending := rest, reply := .ack }
    (∀ e, decode w = .error e → step s = .next { a with status.errOp := true }) ∧
      (∀ i, decode w = .ok i → s.ctrl.run = false → step s = .next { a with status.errNrun := true }) ∧
      (∀ i, decode w = .ok i → s.ctrl.run = true → step s = exec i a)

/-- Every well-formed operation, with every value of its argument, is read back from its word (R92, R95). -/
def Obligations.DecodeEncodeRoundTrip : Prop := ∀ i : Instr, i.wellFormed = true → decode (encode i) = .ok i

/-- A word that decodes is the word of the operation it decodes to, so no two words name one operation (R92, R95). -/
def Obligations.EncodeDecodeRoundTrip : Prop :=
  ∀ (w : Word) (i : Instr), decode w = .ok i → encode i = w ∧ i.wellFormed = true

/-- R95: a word is an operation exactly when `w & mask = match` for a row of the table, the row is the one of that
operation, and no word selects two rows. -/
def Obligations.DecodeSelectsTableRow : Prop :=
  ∀ w : Word, ((∃ i, decode w = .ok i) ↔ ∃ row ∈ opcodeTable, row.selects w = true) ∧
    (∀ i row, decode w = .ok i → row ∈ opcodeTable → row.selects w = true → row.mnemonic = i.mnemonic) ∧
    (∀ row₁ ∈ opcodeTable, ∀ row₂ ∈ opcodeTable, row₁.selects w = true → row₂.selects w = true → row₁ = row₂)

/-- R105: the words that are not operations, each refused with `ERR_OP` in either phase; every `ARG` is legal for
`OSC.HARM`. -/
def Obligations.NotAnOperationIsRefused : Prop :=
  (∀ (w : Word) (s : State),
    let upper := w.toNat / 2 ^ 16
    let opc := w.toNat / 2 ^ 8 % 2 ^ 8
    let arg := w.toNat % 2 ^ 8
    (upper ≠ 0 ∨ opc = 0x00 ∨ (0x02 ≤ opc ∧ opc ≤ 0x0F) ∨ (0x13 ≤ opc ∧ opc ≤ 0x1F) ∨ (0x21 ≤ opc ∧ opc ≤ 0x2F) ∨
        0x34 ≤ opc ∨ (arg ≠ 0 ∧ opc ∈ [0x01, 0x10, 0x12, 0x30, 0x31, 0x32, 0x33]) ∨ (opc = 0x20 ∧ 3 < arg)) →
      busWrite 0x02 w s = .next { s with status.errOp := true }) ∧
    ∀ k : BitVec 8, decode (0x00001100 + k.zeroExtend 32) = .ok (.oscHarm k)

/-- Words written out from the table of R95 decode to the operations they stand for. -/
def Obligations.TableWordsDecode : Prop :=
  decode 0x00000100 = .ok .sample ∧ decode 0x00001000 = .ok .oscSin ∧ decode 0x000011FF = .ok (.oscHarm 255) ∧
    decode 0x00001200 = .ok .oscAdv ∧ decode 0x00002003 = .ok (.bqProc 3) ∧ decode 0x00003000 = .ok .encMono ∧
    decode 0x00003100 = .ok .encDiff ∧ decode 0x00003200 = .ok .encMix ∧ decode 0x00003300 = .ok .encExt

/-- Every operation requested in the CONFIG phase sets `ERR_NRUN` and does nothing else (R94, R240). -/
def Obligations.OperationsRefusedInConfig : Prop :=
  ∀ (i : Instr) (s : State), i.wellFormed = true → s.ctrl.run = false → exec i s = .next { s with status.errNrun := true }

/-! ## The Oscillator -/

/-- R153: `pilot <- fsin(PHASE)`; nothing else changes, so a second `OSC.SIN` gives the same `pilot`; refused in the
CONFIG phase; `PHASE = +0.0` gives `+0.0`, an infinite or NaN `PHASE` a NaN. -/
def Obligations.OscSinWritesPilot : Prop :=
  decode 0x00001000 = .ok .oscSin ∧
  ∀ s : State,
    (s.ctrl.run = true →
      exec .oscSin s = .next { s with dp.v.pilot := B32.fsin s.dp.phase, status.busy := false }) ∧
    (s.ctrl.run = false → exec .oscSin s = .next { s with status.errNrun := true }) ∧
    (s.ctrl.run = true → ∃ t, exec .oscSin s = .next t ∧
      (∃ u, exec .oscSin t = .next u ∧ u.dp.v.pilot = t.dp.v.pilot) ∧
      (s.dp.phase = 0x00000000 → t.dp.v.pilot = 0x00000000) ∧
      (B32.isFinite s.dp.phase = false → B32.isNaN t.dp.v.pilot = true))

/-- R154: `a <- fmul(fofnat(k), PHASE)`, `subcarrier <- fsin(a)`; nothing else changes but the count of NaN draws (log
entry 3); refused in the CONFIG phase. Corner cases: `k = 0` gives `+0.0` for a finite non-negative `PHASE`; `k = 1` the
sine of a finite `PHASE` itself; `k = 2` doubles a `PHASE` below 2^127 exactly; every product of a finite `PHASE` is rounded
once; an infinite or NaN `PHASE` gives a NaN. -/
def Obligations.OscHarmWritesSubcarrier : Prop :=
  ∀ (s : State) (k : BitVec 8),
    let a := B32.fmul s.dp.draws (B32.fofnat k) s.dp.phase
    decode (0x00001100 ||| k.zeroExtend 32) = .ok (.oscHarm k) ∧
    (s.ctrl.run = true → exec (.oscHarm k) s = .next { s with
      dp.v.subcarrier := B32.fsin a, dp.draws := s.dp.draws + 1, status.busy := false }) ∧
    (s.ctrl.run = false → exec (.oscHarm k) s = .next { s with status.errNrun := true }) ∧
    (k = 0 → B32.isFinite s.dp.phase = true → B32.isNeg s.dp.phase = false → a = 0x00000000 ∧ B32.fsin a = 0x00000000) ∧
    (k = 1 → B32.isFinite s.dp.phase = true → a = s.dp.phase) ∧
    (k = 2 → B32.expField s.dp.phase < 254 → B32.isFinite a = true ∧ B32.value a = 2 * B32.value s.dp.phase) ∧
    (B32.isFinite s.dp.phase = true → RoundsTo (k.toNat * B32.value s.dp.phase) 0 a) ∧
    (B32.isFinite s.dp.phase = false → B32.isNaN (B32.fsin a) = true)

/-- R155: `t <- fadd(PHASE, PHASE_INC)`, and `C_2PI` is taken off once if `t` is at least `C_2PI`; refused in the CONFIG
phase. `t` exactly `C_2PI` wraps to `+0.0`, and a NaN `t` is stored. (R155's "`PHASE_INC = +0.0` leaves `PHASE` unchanged"
holds of every legal `PHASE` but `−0.0`, which becomes `+0.0`: R123.) -/
def Obligations.OscAdvAdvancesPhase : Prop :=
  decode 0x00001200 = .ok .oscAdv ∧
  ∀ s : State,
    let t := B32.fadd s.dp.draws s.dp.phase s.dp.phaseInc
    let p := if B32.fge t 0x40C90FDB = true then B32.fsub (s.dp.draws + 1) t 0x40C90FDB else t
    (s.ctrl.run = true → exec .oscAdv s =
      .next { s with dp.phase := p, dp.draws := s.dp.draws + 2, status.busy := false }) ∧
    (s.ctrl.run = false → exec .oscAdv s = .next { s with status.errNrun := true }) ∧
    (t = 0x40C90FDB → p = 0x00000000) ∧ (B32.isNaN t = true → p = t) ∧
    (PhaseLegal s.dp.phase → s.dp.phase ≠ 0x80000000 → s.dp.phaseInc = 0x00000000 → p = s.dp.phase)

/-- One advance adds `PHASE_INC` and takes off `C_2PI` or nothing, with an error of at most 2^-21, and of at most 2^-22
when the exact sum is below 8; the subtraction adds no error of its own (R155, R160). In units of 2^-149. -/
def Obligations.PhaseStepErrorBounded : Prop :=
  ∀ (d : Nat) (p inc : Word), PhaseLegal p → PhaseLegal inc →
    let p' := phaseAfter b32 d p inc
    ∃ wraps : Int, (wraps = 0 ∨ wraps = 1) ∧
      |B32.value p' - (B32.value p + B32.value inc - wraps * B32.value B32.c2pi)| ≤ 2 ^ 128 ∧
      (B32.value p + B32.value inc < 8 * 2 ^ 149 →
        |B32.value p' - (B32.value p + B32.value inc - wraps * B32.value B32.c2pi)| ≤ 2 ^ 127) ∧
      let t := B32.fadd d p inc
      (B32.fge t B32.c2pi = true → p' = B32.fsub (d + 1) t B32.c2pi ∧ B32.value p' = B32.value t - B32.value B32.c2pi)

/-- The range invariant of R156, over every step of the machine in the RUN phase: operations, bus accesses and reset
keep `PHASE` and `PHASE_INC` finite and in `[0, C_2PI)`. -/
def Obligations.RunStepsKeepPhaseInRange : Prop :=
  ∀ s t : State, s.ctrl.run = true → s.PhaseInRange → step s = .next t → t.PhaseInRange

/-- R159: in `N_real`, from phase 0, `n` advances leave the representative of `n·inc` in `[0, 2π)`. -/
def Obligations.RealPhaseClosedForm : Prop :=
  ∀ (m : Datapath ℝ) (n : Nat), m.phase = 0 → 0 ≤ m.phaseInc → m.phaseInc < 2 * Real.pi →
    let p := ((oscAdv exact)^[n] m).phase
    p = n * m.phaseInc - 2 * Real.pi * ⌊n * m.phaseInc / (2 * Real.pi)⌋ ∧ 0 ≤ p ∧ p < 2 * Real.pi

/-- Properties S2, S3 and S5 of R130 hold of the sine whatever the open parameter is. -/
def Obligations.SineProperties : Prop :=
  B32.fsin 0x00000000 = 0x00000000 ∧ B32.fsin 0x80000000 = 0x80000000 ∧
    (∀ a : Word, B32.isFinite a = true →
      B32.isFinite (B32.fsin a) = true ∧ |B32.value (B32.fsin a)| ≤ B32.value 0x3F800000) ∧
    (∀ a : Word, B32.isFinite a = false → B32.isNaN (B32.fsin a) = true)

/-- R157: `OSC.SIN` then `OSC.HARM 2` take the sine of one `PHASE`: in `N_b32` the second argument is exactly twice the
first and the result is within `EPS_SIN` of the real sine of it; in `N_real` it is that sine. -/
def Obligations.PhaseLock : Prop :=
  (∀ (s : State) (eps : ℝ), SinAccurate eps → s.ctrl.run = true → PhaseLegal s.dp.phase →
    ∃ t u, exec .oscSin s = .next t ∧ exec (.oscHarm 2) t = .next u ∧ u.dp.phase = s.dp.phase ∧
      u.dp.v.pilot = B32.fsin s.dp.phase ∧
      u.dp.v.subcarrier = B32.fsin (B32.fmul s.dp.draws (B32.fofnat 2) s.dp.phase) ∧
      realOf (B32.fmul s.dp.draws (B32.fofnat 2) s.dp.phase) = 2 * realOf s.dp.phase ∧
      |realOf u.dp.v.subcarrier - Real.sin (2 * realOf s.dp.phase)| ≤ eps) ∧
    ∀ m : Datapath ℝ, (oscSin exact m).v.pilot = Real.sin m.phase ∧
      (oscHarm exact 2 (oscSin exact m)).v.subcarrier = Real.sin (2 * m.phase)

/-! ## The Biquad engine -/

/-- R171 and R172: the word of `BQ.PROC i`, its recurrence in its order of evaluation, its source and destination, its
two refusals, and its formula in real numbers. -/
def Obligations.BqProcFollowsRecurrence : Prop :=
  (∀ i, decode (0x00002000 ||| BitVec.ofNat 32 (instNumber i)) = .ok (.bqProc (BitVec.ofNat 8 (instNumber i)))) ∧
  (∀ (s : State) (i : BqInst),
    let b := s.dp.bq.get i
    let d := s.dp.draws
    let x := match i with
      | .preemphL => s.dp.v.leftRaw
      | .preemphR => s.dp.v.rightRaw
      | .lowpassL => s.dp.v.preL
      | .lowpassR => s.dp.v.preR
    let p0 := B32.fmul d b.b0 x
    let p1 := B32.fmul (d + 1) b.b1 b.x1
    let p2 := B32.fmul (d + 2) b.b2 b.x2
    let q1 := B32.fmul (d + 3) b.a1 b.y1
    let q2 := B32.fmul (d + 4) b.a2 b.y2
    let s1 := B32.fadd (d + 5) p0 p1
    let s2 := B32.fadd (d + 6) s1 p2
    let s3 := B32.fsub (d + 7) s2 q1
    let y := B32.fsub (d + 8) s3 q2
    let v := match i with
      | .preemphL => { s.dp.v with preL := y }
      | .preemphR => { s.dp.v with preR := y }
      | .lowpassL => { s.dp.v with lpL := y }
      | .lowpassR => { s.dp.v with lpR := y }
    (s.ctrl.run = true → exec (.bqProc (BitVec.ofNat 8 (instNumber i))) s =
      .next { s with
        dp.bq := s.dp.bq.set i { b with x2 := b.x1, x1 := x, y2 := b.y1, y1 := y }
        dp.v := v
        dp.draws := d + 9
        status.busy := false }) ∧
    (s.ctrl.run = false → exec (.bqProc (BitVec.ofNat 8 (instNumber i))) s = .next { s with status.errNrun := true })) ∧
    (∀ (s : State) (arg : BitVec 8), 3 < arg.toNat → exec (.bqProc arg) s = .next { s with status.errOp := true }) ∧
    ∀ (d : Nat) (b : Biquad ℝ) (x : ℝ),
      bqOutput exact d b x = b.b0 * x + b.b1 * b.x1 + b.b2 * b.x2 - b.a1 * b.y1 - b.a2 * b.y2

/-- R173, R174: the output and the new history of an instance depend on that instance's registers and on `x` alone,
unless the output is a NaN, whose pattern is a draw (log entry 3); and the other instances keep all theirs. -/
def Obligations.InstancesAreIndependent : Prop :=
  ∀ (s s' : State) (i : BqInst), s.ctrl.run = true → s'.ctrl.run = true → s.dp.bq.get i = s'.dp.bq.get i →
    s.dp.v.get (bqSource i) = s'.dp.v.get (bqSource i) →
      ∃ t t', exec (.bqProc (BitVec.ofNat 8 (instNumber i))) s = .next t ∧
        exec (.bqProc (BitVec.ofNat 8 (instNumber i))) s' = .next t' ∧
        B32.isNaN (t.dp.v.get (bqDest i)) = B32.isNaN (t'.dp.v.get (bqDest i)) ∧
        (B32.isNaN (t.dp.v.get (bqDest i)) = false →
          t.dp.v.get (bqDest i) = t'.dp.v.get (bqDest i) ∧ t.dp.bq.get i = t'.dp.bq.get i) ∧
        ∀ j, j ≠ i → t.dp.bq.get j = s.dp.bq.get j

/-- R173: the two preemphasis instances commute, and so do the two lowpass instances, unless a result is a NaN, whose
pattern is a draw (R128; log entry 3). -/
def Obligations.ChannelsCommute : Prop :=
  ∀ (i j : BqInst) (s a b c d : State), (i = .preemphL ∧ j = .preemphR) ∨ (i = .lowpassL ∧ j = .lowpassR) →
    exec (.bqProc (BitVec.ofNat 8 (instNumber i))) s = .next a →
    exec (.bqProc (BitVec.ofNat 8 (instNumber j))) a = .next b →
    exec (.bqProc (BitVec.ofNat 8 (instNumber j))) s = .next c →
    exec (.bqProc (BitVec.ofNat 8 (instNumber i))) c = .next d →
    B32.isNaN (b.dp.v.get (bqDest i)) = false → B32.isNaN (b.dp.v.get (bqDest j)) = false → b = d

/-- R175 (d): with a NaN in an instance's history its output and its new `Y1` are NaN; with an infinity or a NaN there
they are not finite. -/
def Obligations.NonFiniteHistoryPoisons : Prop :=
  ∀ (s : State) (i : BqInst), s.ctrl.run = true →
    let b := s.dp.bq.get i
    ∃ t, exec (.bqProc (BitVec.ofNat 8 (instNumber i))) s = .next t ∧
      ((B32.isNaN b.x1 || B32.isNaN b.x2 || B32.isNaN b.y1 || B32.isNaN b.y2) = true →
        B32.isNaN (t.dp.v.get (bqDest i)) = true ∧ B32.isNaN (t.dp.bq.get i).y1 = true) ∧
      (¬ FiniteHistory b →
        B32.isFinite (t.dp.v.get (bqDest i)) = false ∧ B32.isFinite (t.dp.bq.get i).y1 = false)

/-- With all coefficients `+0.0`, a finite input and a finite history, the output is a zero. It is the `+0.0` of R52 and
R175 (b) but in one case, which R171 and R123 decide: `−0.0` for negative inputs and no negative output in the history
(see `ZeroCoefficientsGivePlusZero`; log entry 17). In `N_real` the output is 0 for every input and history. -/
def Obligations.ZeroCoefficientsGiveZero : Prop :=
  (∀ (s : State) (i : BqInst), s.ctrl.run = true → SameCoefs (s.dp.bq.get i) (.const 0x00000000) →
    B32.isFinite (s.dp.v.get (bqSource i)) = true → FiniteHistory (s.dp.bq.get i) →
      let x := s.dp.v.get (bqSource i)
      let b := s.dp.bq.get i
      ∃ t, exec (.bqProc (BitVec.ofNat 8 (instNumber i))) s = .next t ∧ B32.isZero (t.dp.v.get (bqDest i)) = true ∧
        t.dp.v.get (bqDest i) =
          if B32.isNeg x && B32.isNeg b.x1 && B32.isNeg b.x2 && !B32.isNeg b.y1 && !B32.isNeg b.y2 then 0x80000000
          else 0x00000000) ∧
  ∀ (d : Nat) (b : Biquad ℝ) (x : ℝ), b.b0 = 0 → b.b1 = 0 → b.b2 = 0 → b.a1 = 0 → b.a2 = 0 → bqOutput exact d b x = 0

/-- R175 (b) as the spec words it, "`y = +0.0` for every finite `x` and finite history". EXPECTED TO FAIL: with negative
inputs and positive outputs in the history the recurrence of R171 gives `−0.0` (log entry 17). -/
def Obligations.ZeroCoefficientsGivePlusZero : Prop :=
  ∀ (s : State) (i : BqInst), s.ctrl.run = true → SameCoefs (s.dp.bq.get i) (.const 0x00000000) →
    B32.isFinite (s.dp.v.get (bqSource i)) = true → FiniteHistory (s.dp.bq.get i) →
      ∃ t, exec (.bqProc (BitVec.ofNat 8 (instNumber i))) s = .next t ∧ t.dp.v.get (bqDest i) = 0x00000000

/-- R175 (c): the identity coefficients deliver every finite non-zero `x` unchanged, with a finite history; for a zero
`x` the output is a zero whose sign depends on the signs of the history, as in `ZeroCoefficientsGiveZero`. -/
def Obligations.IdentityCoefficientsDeliverInput : Prop :=
  ∀ (s : State) (i : BqInst), s.ctrl.run = true →
    SameCoefs (s.dp.bq.get i) { Biquad.const (0x00000000 : Word) with b0 := 0x3F800000 } →
    B32.isFinite (s.dp.v.get (bqSource i)) = true → FiniteHistory (s.dp.bq.get i) →
      let x := s.dp.v.get (bqSource i)
      let b := s.dp.bq.get i
      ∃ t, exec (.bqProc (BitVec.ofNat 8 (instNumber i))) s = .next t ∧
        t.dp.v.get (bqDest i) =
          if B32.isZero x = false then x
          else if B32.isNeg x && B32.isNeg b.x1 && B32.isNeg b.x2 && !B32.isNeg b.y1 && !B32.isNeg b.y2 then 0x80000000
          else 0x00000000

/-! ## The Stereo encoder -/

/-- R201: `mono <- fhalf(fadd(lpL, lpR))`, with its corner cases: the halving is exact when the sum has an exponent field
of at least 2; two largest numbers overflow; opposite channels give `+0.0`, and twice `−0.0` gives `−0.0`. -/
def Obligations.EncMonoHalvesSum : Prop :=
  decode 0x00003000 = .ok .encMono ∧
  ∀ s : State,
    let sum := B32.fadd s.dp.draws s.dp.v.lpL s.dp.v.lpR
    let mono := B32.fhalf (s.dp.draws + 1) sum
    (s.ctrl.run = true → exec .encMono s =
      .next { s with dp.v.mono := mono, dp.draws := s.dp.draws + 2, status.busy := false }) ∧
    (s.ctrl.run = false → exec .encMono s = .next { s with status.errNrun := true }) ∧
    (2 ≤ B32.expField sum → B32.isFinite sum = true → 2 * B32.value mono = B32.value sum) ∧
    (s.dp.v.lpL = 0x7F7FFFFF → s.dp.v.lpR = 0x7F7FFFFF → mono = 0x7F800000) ∧
    (B32.isFinite s.dp.v.lpR = true → s.dp.v.lpL = B32.fneg s.dp.v.lpR → mono = 0x00000000) ∧
    (s.dp.v.lpL = 0x80000000 → s.dp.v.lpR = 0x80000000 → mono = 0x80000000)

/-- R202: `diff <- fhalf(fsub(lpL, lpR))`, left minus right; equal finite channels give exactly `+0.0`, and two largest
numbers of opposite sign overflow. -/
def Obligations.EncDiffHalvesDifference : Prop :=
  decode 0x00003100 = .ok .encDiff ∧
  ∀ s : State,
    let diff := B32.fhalf (s.dp.draws + 1) (B32.fsub s.dp.draws s.dp.v.lpL s.dp.v.lpR)
    (s.ctrl.run = true → exec .encDiff s =
      .next { s with dp.v.diff := diff, dp.draws := s.dp.draws + 2, status.busy := false }) ∧
    (s.ctrl.run = false → exec .encDiff s = .next { s with status.errNrun := true }) ∧
    (B32.isFinite s.dp.v.lpL = true → s.dp.v.lpL = s.dp.v.lpR → diff = 0x00000000) ∧
    (s.dp.v.lpL = 0x7F7FFFFF → s.dp.v.lpR = 0xFF7FFFFF → diff = 0x7F800000)

/-- R203: the stereo composite in its grouping, or in mono mode the pattern of `mono`, whatever `diff`, `pilot` and
`subcarrier` hold; refused in the CONFIG phase. A NaN operand gives a NaN in stereo mode. With a zero `diff` and a finite
`subcarrier` the composite is `fadd(t1, t2)`, unless that is `−0.0` (R203 does not except it, but R123 may give `+0.0`) or a
NaN. -/
def Obligations.EncMixFollowsFormula : Prop :=
  decode 0x00003200 = .ok .encMix ∧
  ∀ s : State,
    let d := s.dp.draws
    let t1 := B32.fmul d s.dp.v.mono 0x3EE66666
    let t2 := B32.fmul (d + 1) s.dp.v.pilot 0x3DB851EC
    let m := B32.fmul (d + 2) s.dp.v.diff s.dp.v.subcarrier
    let t3 := B32.fmul (d + 3) m 0x3EE66666
    let u := B32.fadd (d + 4) t1 t2
    (s.ctrl.run = true → s.ctrl.stereo = true → exec .encMix s =
      .next { s with dp.v.composite := B32.fadd (d + 5) u t3, dp.draws := d + 6, status.busy := false }) ∧
    (s.ctrl.run = true → s.ctrl.stereo = false → exec .encMix s =
      .next { s with dp.v.composite := s.dp.v.mono, status.busy := false }) ∧
    (s.ctrl.run = false → exec .encMix s = .next { s with status.errNrun := true }) ∧
    ((B32.isNaN s.dp.v.mono || B32.isNaN s.dp.v.pilot || B32.isNaN s.dp.v.diff || B32.isNaN s.dp.v.subcarrier) = true →
      B32.isNaN (B32.fadd (d + 5) u t3) = true) ∧
    (B32.isZero s.dp.v.diff = true → B32.isFinite s.dp.v.subcarrier = true → B32.isNaN u = false → u ≠ 0x80000000 →
      B32.fadd (d + 5) u t3 = u)

/-- R206: the external sample, or `+0.0` when it is not enabled, is added in both modes; refused in the CONFIG phase. Adding
`+0.0` leaves a `composite` that is no NaN as it is, but `−0.0` becomes `+0.0`; the addition is exact in `N_real` and rounded
once in `N_b32`. -/
def Obligations.EncExtAddsExternal : Prop :=
  decode 0x00003300 = .ok .encExt ∧
  (∀ s : State,
    let e := if s.ctrl.extEn = true then s.dp.v.externalMpx else 0x00000000
    let composite := B32.fadd s.dp.draws s.dp.v.composite e
    (s.ctrl.run = true → exec .encExt s =
      .next { s with dp.v.composite := composite, dp.draws := s.dp.draws + 1, status.busy := false }) ∧
    (s.ctrl.run = false → exec .encExt s = .next { s with status.errNrun := true }) ∧
    (s.ctrl.extEn = false → B32.isNaN s.dp.v.composite = false →
      composite = if s.dp.v.composite = 0x80000000 then 0x00000000 else s.dp.v.composite) ∧
    (B32.isFinite s.dp.v.composite = true → B32.isFinite e = true →
      RoundsTo (B32.value s.dp.v.composite + B32.value e) 0 composite)) ∧
  ∀ (c : Ctrl) (m : Datapath ℝ),
    (encExt exact c m).v.composite = m.v.composite + if c.extEn = true then m.v.externalMpx else 0

/-- In `N_real` a `SAMPLE` delivers the source's formulas of steps 3 to 7 (R121, R201 to R206), so the external sample
adds to `composite` exactly; the stereo composite without it is at most 0.99 when `mono` and `diff` are at most 1 (R205). -/
def Obligations.RealCompositeFormula : Prop :=
  ∀ (c : Ctrl) (m : Datapath ℝ),
    let n := (sample exact c m).v
    let mix := n.mono * 0.45 + n.pilot * 0.09 + n.diff * n.subcarrier * 0.45
    n.mono = (n.lpL + n.lpR) / 2 ∧ n.diff = (n.lpL - n.lpR) / 2 ∧ n.pilot = Real.sin m.phase ∧
      n.subcarrier = Real.sin (2 * m.phase) ∧
      n.composite = (if c.stereo = true then mix else n.mono) + (if c.extEn = true then m.v.externalMpx else 0) ∧
      (|n.mono| ≤ 1 → |n.diff| ≤ 1 → |mix| ≤ 0.99)

/-- The source's test scenario of R202: with equal inputs, coefficients and histories on the left and the right, a `SAMPLE`
that leaves `lpL` finite leaves the two channels equal and `+0.0` on `diff`. -/
def Obligations.EqualChannelsStayEqual : Prop :=
  ∀ s : State, s.ctrl.run = true → s.dp.v.leftRaw = s.dp.v.rightRaw → s.dp.bq.preemphL = s.dp.bq.preemphR →
    s.dp.bq.lowpassL = s.dp.bq.lowpassR →
      ∃ t, exec .sample s = .next t ∧
        (B32.isFinite t.dp.v.lpL = true → t.dp.bq.preemphL = t.dp.bq.preemphR ∧ t.dp.bq.lowpassL = t.dp.bq.lowpassR ∧
          t.dp.v.preL = t.dp.v.preR ∧ t.dp.v.lpL = t.dp.v.lpR ∧ t.dp.v.diff = 0x00000000)

/-! ## SAMPLE -/

/-- R207: `SAMPLE` is its eleven operations in their order, and is refused whole in the CONFIG phase. -/
def Obligations.SampleFollowsElevenSteps : Prop :=
  decode 0x00000100 = .ok .sample ∧
  ∀ s : State,
    let m4 := bqProc b32 .lowpassR (bqProc b32 .lowpassL (bqProc b32 .preemphR (bqProc b32 .preemphL s.dp)))
    let m8 := oscHarm b32 2 (oscSin b32 (encDiff b32 (encMono b32 m4)))
    let m11 := oscAdv b32 (encExt b32 s.ctrl (encMix b32 s.ctrl m8))
    (s.ctrl.run = true → exec .sample s = .next { s with dp := { m11 with upc := 0 }, status.busy := false }) ∧
    (s.ctrl.run = false → exec .sample s = .next { s with status.errNrun := true })

/-- R208: from any idle state in the RUN phase, one request of `SAMPLE` and the eleven requests of `SAMPLE.UNROLLED`
lead to the same state, in every register. That NaNs are the same too is the model's numbering of the draws (log entry 3). -/
def Obligations.SampleEqualsUnrolled : Prop :=
  ∀ (s : State) (rest : List HostAction), s.Idle → s.ctrl.run = true →
    ∃ t, core.run 1 { s with pending := scriptOp .sample ++ rest } = .next t ∧
      core.run 11 { s with pending := scriptUnrolled ++ rest } = .next t ∧ t.pending = rest

/-- R210 (b), R22: `SAMPLE` reads no value of `V[3..11]` left by an earlier operation or written by the host. That NaNs
are the same too is the model's numbering of the draws (log entry 3). -/
def Obligations.SampleIgnoresStaleValues : Prop :=
  ∀ (s : State) (v : Values Word), v.leftRaw = s.dp.v.leftRaw → v.rightRaw = s.dp.v.rightRaw →
    v.externalMpx = s.dp.v.externalMpx → s.ctrl.run = true →
      ∃ t, exec .sample s = .next t ∧ exec .sample { s with dp.v := v } = .next t

/-- R56 (a), (b), R158: a `SAMPLE` reads the phase before it advances it once, and shifts every history once. -/
def Obligations.SampleUpdatesOncePerSample : Prop :=
  ∀ s : State, s.ctrl.run = true → ∃ t, exec .sample s = .next t ∧
    (∃ d, t.dp.phase = phaseAfter b32 d s.dp.phase s.dp.phaseInc) ∧
    t.dp.v.pilot = B32.fsin s.dp.phase ∧
    (∃ d, t.dp.v.subcarrier = B32.fsin (B32.fmul d (B32.fofnat 2) s.dp.phase)) ∧
    ∀ i : BqInst, (t.dp.bq.get i).x1 = t.dp.v.get (bqSource i) ∧ (t.dp.bq.get i).x2 = (s.dp.bq.get i).x1 ∧
      (t.dp.bq.get i).y1 = t.dp.v.get (bqDest i) ∧ (t.dp.bq.get i).y2 = (s.dp.bq.get i).y1

/-! ## The bus -/

/-- R66: what a read returns at each of the 128 addresses, and that it changes nothing; `BUSY` reads 0 in an idle core. -/
def Obligations.BusReadFollowsMap : Prop :=
  ∀ s : State,
    (busRead 0x00 s).toNat = s.ctrl.extEn.toNat * 4 + s.ctrl.stereo.toNat * 2 + s.ctrl.run.toNat ∧
    (busRead 0x01 s).toNat = s.status.errAddr.toNat * 16 + s.status.errNrun.toNat * 8 + s.status.errLock.toNat * 4 +
      s.status.errOp.toNat * 2 + s.status.busy.toNat ∧
    busRead 0x04 s = s.dp.phase ∧ busRead 0x05 s = s.dp.phaseInc ∧
    (∀ r, busRead (BitVec.ofNat 7 (0x10 + vregNumber r)) s = s.dp.v.get r) ∧
    (∀ i r, busRead (BitVec.ofNat 7 (0x20 + 0x10 * instNumber i + bqRegOffset r)) s = (s.dp.bq.get i).get r) ∧
    (∀ a : BusAddr, a.toNat = 0x02 ∨ reservedAddress a.toNat → busRead a s = 0x00000000) ∧
    (s.Idle → (busRead 0x01 s).getLsbD 0 = false) ∧
    ∀ a rest, s.pending = .read a :: rest → step s = .next { s with pending := rest, reply := .data (busRead a s) }

/-- R65, R249: reads are idempotent, and without an action of the host the core keeps its state. The host's list of
actions and the reply, and so the step without an action, are the model's own (log entries 1 and 8). -/
def Obligations.ReadsAndIdlenessChangeNothing : Prop :=
  ∀ s : State,
    (∀ a rest t, s.pending = .read a :: rest → step s = .next t →
      (∀ b, busRead b t = busRead b s) ∧ t.dp = s.dp ∧ t.ctrl = s.ctrl ∧ t.status = s.status) ∧
    (s.pending = [] → step s = .next { s with reply := .quiet })

/-- R23: any pattern written to a value register is stored and read back unchanged, in either phase, and no other value
register changes with it. -/
def Obligations.ValueRegistersStoreAnyPattern : Prop :=
  ∀ (s : State) (r : VReg) (w : Word), ∃ t, busWrite (BitVec.ofNat 7 (0x10 + vregNumber r)) w s = .next t ∧
    busRead (BitVec.ofNat 7 (0x10 + vregNumber r)) t = w ∧
    (∀ a : BusAddr, a.toNat ≠ 0x10 + vregNumber r → busRead a t = busRead a s) ∧ t.dp.upc = s.dp.upc

/-- R50: a locked register is stored by a write in the CONFIG phase, alone, and is refused with `ERR_LOCK` in the RUN
phase. (`CTRL` stores its three fields: R31.) -/
def Obligations.LockedRegisterWrites : Prop :=
  ∀ (s : State) (a : BusAddr) (w : Word), lockedAddress a.toNat →
    (s.ctrl.run = true → busWrite a w s = .next { s with status.errLock := true }) ∧
    (s.ctrl.run = false → a.toNat ≠ 0x00 → ∃ t, busWrite a w s = .next t ∧ busRead a t = w ∧
      ∀ b : BusAddr, b ≠ a → busRead b t = busRead b s)

/-- R31: what a write to `CTRL` does in the CONFIG phase, and that it is refused in the RUN phase. -/
def Obligations.CtrlWriteSetsFields : Prop :=
  ∀ (s : State) (w : Word),
    (s.ctrl.run = false → busWrite 0x00 w s =
      .next { s with ctrl := { stereo := w.getLsbD 1, extEn := w.getLsbD 2, run := w.getLsbD 0 } }) ∧
    (s.ctrl.run = true → busWrite 0x00 w s = .next { s with status.errLock := true })

/-- R68: reserved addresses read 0 and refuse writes, as `STATUS` does, with `ERR_ADDR` in either phase; the reserved
bits of `CTRL` read 0 and ignore what is written. -/
def Obligations.ReservedAddressesRefuse : Prop :=
  ∀ (s : State) (w : Word),
    (∀ a : BusAddr, reservedAddress a.toNat →
      busRead a s = 0x00000000 ∧ busWrite a w s = .next { s with status.errAddr := true }) ∧
    busWrite 0x01 w s = .next { s with status.errAddr := true } ∧
    (busRead 0x00 s).toNat < 8 ∧ busWrite 0x00 w s = busWrite 0x00 (w &&& 0x00000007) s

/-! ## The whole machine -/

/-- R240, R241, R275: until reset, no step of a running core leaves the RUN phase or changes the configuration. -/
def Obligations.RunPhaseFreezesConfiguration : Prop :=
  ∀ s t : State, s.ctrl.run = true → s.pending.head? ≠ some .reset → step s = .next t →
    t.ctrl.run = true ∧ SameConfig s t

/-- R32: a sticky flag stays set in every step but reset, and reset clears all four. -/
def Obligations.FlagsStickUntilReset : Prop :=
  ∀ s t : State, step s = .next t →
    (s.pending.head? ≠ some .reset → ∀ f, s.status.has f = true → t.status.has f = true) ∧
    (s.pending.head? = some .reset → t.NoFlag)

/-- R34, R42, R50: in the RUN phase, until reset, `PHASE` moves only by `OSC.ADV` or `SAMPLE`, and an instance's
registers only by its own `BQ.PROC` or `SAMPLE`. -/
def Obligations.PhaseAndHistoryMoveOnlyByOperations : Prop :=
  ∀ s t : State, s.ctrl.run = true → s.pending.head? ≠ some .reset → step s = .next t →
    (t.dp.phase ≠ s.dp.phase → ∃ w, s.pending.head? = some (.write 0x02 w) ∧
      (decode w = .ok .oscAdv ∨ decode w = .ok .sample)) ∧
    ∀ i, t.dp.bq.get i ≠ s.dp.bq.get i → ∃ w, s.pending.head? = some (.write 0x02 w) ∧
      (decode w = .ok (.bqProc (BitVec.ofNat 8 (instNumber i))) ∨ decode w = .ok .sample)

/-- The frame of all nine operations (R21, R22, R34, R41 to R43, R45): the value registers outside the column "written
by", the phase of all but two, the instances not processed, every coefficient, the increment, `CTRL`, in the RUN phase
every flag, and the host's side are as before; in the CONFIG phase so is everything but one flag. -/
def Obligations.OperationsChangeOnlyWhatTheyWrite : Prop :=
  ∀ (i : Instr) (s t : State), i.wellFormed = true → exec i s = .next t →
    t.ctrl = s.ctrl ∧ t.pending = s.pending ∧ t.reply = s.reply ∧ t.dp.phaseInc = s.dp.phaseInc ∧
    (∀ j, SameCoefs (t.dp.bq.get j) (s.dp.bq.get j)) ∧
    (∀ r, r ∉ writtenValues i → t.dp.v.get r = s.dp.v.get r) ∧
    (∀ j, j ∉ writtenInstances i → t.dp.bq.get j = s.dp.bq.get j) ∧
    (i ≠ .oscAdv → i ≠ .sample → t.dp.phase = s.dp.phase) ∧
    (s.ctrl.run = true → ∀ f, t.status.has f = s.status.has f) ∧
    (s.ctrl.run = false → t.dp = s.dp ∧ t.status = { s.status with errNrun := true })

/-- Every step completes, from every state: none faults, none is refused by the model. R281 says so of the operations;
of a step with nothing pending and of the absence of faults it is the model's (log entries 1 and 11). -/
def Obligations.EveryStepCompletes : Prop := ∀ s : State, ∃ t, step s = .next t

/-- R27, R32, R47: no step ends with `BUSY` or `UPC` different from 0, so no agent observes them so. -/
def Obligations.StepsKeepIdle : Prop := ∀ s t : State, s.Idle → step s = .next t → t.Idle

/-- The state after reset is idle, has no flag set and meets the range of the phase (R52, R32, R161). -/
def Obligations.ResetMeetsInvariants : Prop := State.reset.Idle ∧ State.reset.NoFlag ∧ State.reset.PhaseInRange

/-- R52: after reset every register reads 0 but `CTRL`, which reads 2, and `UPC` is 0. -/
def Obligations.ResetValues : Prop :=
  (∀ a : BusAddr, busRead a State.reset = if a = 0x00 then 0x00000002 else 0x00000000) ∧ State.reset.dp.upc = 0 ∧
    State.reset.ctrl.run = false ∧ State.reset.ctrl.stereo = true ∧ State.reset.ctrl.extEn = false

/-- R260: reset, in any state, sets every register to its reset value and leaves the core idle in the CONFIG phase. The
host's further actions and the count of NaN draws, which are the model's own, stay (log entries 1, 3, 7). -/
def Obligations.ResetFromAnyState : Prop :=
  ∀ (s : State) (rest : List HostAction), s.pending = .reset :: rest →
    ∃ t, step s = .next t ∧ (∀ a, busRead a t = busRead a State.reset) ∧ t.Idle ∧ t.ctrl.run = false ∧
      t.pending = rest ∧ t.dp.draws = s.dp.draws

/-! ## Numerics -/

/-- R123: the sum and the difference of two finite data are the exact ones rounded once, to nearest even, to infinity
beyond the range; a zero result is `+0.0`, but for `−0.0 + −0.0` and `−0.0 − +0.0`. -/
def Obligations.SumIsNearest : Prop :=
  ∀ (d : Nat) (a b : Word), B32.isFinite a = true → B32.isFinite b = true →
    RoundsTo (B32.value a + B32.value b) 0 (B32.fadd d a b) ∧
    RoundsTo (B32.value a - B32.value b) 0 (B32.fsub d a b) ∧
    (B32.value a + B32.value b = 0 →
      B32.fadd d a b = if B32.isNeg a = true ∧ B32.isNeg b = true then 0x80000000 else 0x00000000) ∧
    (B32.value a - B32.value b = 0 →
      B32.fsub d a b = if B32.isNeg a = true ∧ B32.isNeg b = false then 0x80000000 else 0x00000000)

/-- R123: the product of two finite data is the exact one rounded once, and its sign is the exclusive-or of theirs, also
when it is zero. -/
def Obligations.ProductIsNearest : Prop :=
  ∀ (d : Nat) (a b : Word), B32.isFinite a = true → B32.isFinite b = true →
    RoundsTo (B32.value a * B32.value b) 149 (B32.fmul d a b) ∧
    B32.isNeg (B32.fmul d a b) = (B32.isNeg a != B32.isNeg b)

/-- R124: `fhalf` takes one off an exponent field of at least 2, rounds to the nearest even subnormal below, keeps zeros
and infinities, and equals the product with 0.5 on every operand (for a NaN with the same draw: log entry 3). -/
def Obligations.HalfIsExactAboveBottom : Prop :=
  ∀ (d : Nat) (a : Word),
    (2 ≤ B32.expField a → B32.expField a ≤ 254 → B32.fhalf d a = a - 0x00800000) ∧
    (B32.isFinite a = true → RoundsTo (B32.value a) 1 (B32.fhalf d a) ∧ B32.isNeg (B32.fhalf d a) = B32.isNeg a) ∧
    (B32.isZero a = true ∨ B32.isInf a = true → B32.fhalf d a = a) ∧
    B32.fhalf d a = B32.fmul d a 0x3F000000

/-- R125: `fge` is false with a NaN, puts the infinities beyond every finite number, and compares the values of finite
data, the two zeros as equal. -/
def Obligations.GreaterEqualIsOrder : Prop :=
  ∀ a b : Word, B32.fge a b = true ↔
    B32.isNaN a = false ∧ B32.isNaN b = false ∧
      (a = 0x7F800000 ∨ b = 0xFF800000 ∨
        (B32.isFinite a = true ∧ B32.isFinite b = true ∧ B32.value b ≤ B32.value a))

/-- R126, R127: `fofnat` is exact for all 256 indices, and the constants are the binary32 numbers nearest to 0, 2π, 0.45
and 0.09, with the errors of R127's table. -/
def Obligations.IntegersAndConstants : Prop :=
  (∀ k : BitVec 8, B32.isFinite (B32.fofnat k) = true ∧ B32.isNeg (B32.fofnat k) = false ∧
    B32.value (B32.fofnat k) = k.toNat * 2 ^ 149) ∧
    b32.cZero = 0x00000000 ∧ b32.c2pi = 0x40C90FDB ∧ b32.c045 = 0x3EE66666 ∧ b32.c009 = 0x3DB851EC ∧
    IsNearest 0 b32.cZero ∧ IsNearest (2 * Real.pi) b32.c2pi ∧ IsNearest (45 / 100) b32.c045 ∧
    IsNearest (9 / 100) b32.c009 ∧
    |realOf b32.c2pi - 2 * Real.pi - 1748 / 10 ^ 10| ≤ 5 / 10 ^ 11 ∧ |realOf b32.c045 - 45 / 100 + 1192 / 10 ^ 11| ≤ 5 / 10 ^ 12 ∧
    |realOf b32.c009 - 9 / 100 - 3576 / 10 ^ 12| ≤ 5 / 10 ^ 13

/-- R128: a NaN operand gives a NaN, so do `∞ − ∞` and `0·∞`, and any other infinite operand gives the infinity of the
evident sign. Which NaN it is, no statement says. -/
def Obligations.NaNAndInfinityRules : Prop :=
  ∀ (d : Nat) (a b : Word),
    (B32.isNaN a = true ∨ B32.isNaN b = true → B32.isNaN (B32.fadd d a b) = true ∧ B32.isNaN (B32.fsub d a b) = true ∧
      B32.isNaN (B32.fmul d a b) = true) ∧
    (B32.isNaN a = true → B32.isNaN (B32.fhalf d a) = true) ∧
    (B32.isInf a = true → B32.isInf b = true → B32.isNeg a ≠ B32.isNeg b → B32.isNaN (B32.fadd d a b) = true) ∧
    (B32.isInf a = true → B32.isInf b = true → B32.isNeg a = B32.isNeg b → B32.isNaN (B32.fsub d a b) = true) ∧
    (B32.isZero a = true → B32.isInf b = true →
      B32.isNaN (B32.fmul d a b) = true ∧ B32.isNaN (B32.fmul d b a) = true) ∧
    (B32.isInf a = true → B32.isFinite b = true → B32.fadd d a b = a ∧ B32.fadd d b a = a ∧ B32.fsub d a b = a ∧
      B32.fsub d b a = B32.fneg a) ∧
    (B32.isInf a = true → B32.isInf b = true → B32.isNeg a = B32.isNeg b → B32.fadd d a b = a) ∧
    (B32.isInf a = true → B32.isInf b = true → B32.isNeg a ≠ B32.isNeg b → B32.fsub d a b = a) ∧
    (B32.isInf a = true → B32.isNaN b = false → B32.isZero b = false →
      B32.isInf (B32.fmul d a b) = true ∧ B32.isNeg (B32.fmul d a b) = (B32.isNeg a != B32.isNeg b) ∧
      B32.isInf (B32.fmul d b a) = true ∧ B32.isNeg (B32.fmul d b a) = (B32.isNeg a != B32.isNeg b)) ∧
    (B32.isInf a = true → B32.fhalf d a = a)

/-- R132: in the normal range one rounding has a relative error of at most 2^-24, below it an absolute error of at most
2^-150; in units of 2^-149 for sums and halves, of 2^-298 for products. -/
def Obligations.RoundingErrorBounds : Prop :=
  ∀ (d : Nat) (a b : Word), B32.isFinite a = true → B32.isFinite b = true →
    let bounded (z : Int) (k : Nat) (r : Word) : Prop :=
      2 * |z| < twiceOverflow k →
        (2 ^ (23 + k) ≤ |z| → 2 ^ 24 * |B32.value r * 2 ^ k - z| ≤ |z|) ∧
          (|z| < 2 ^ (23 + k) → 2 * |B32.value r * 2 ^ k - z| ≤ 2 ^ k)
    bounded (B32.value a + B32.value b) 0 (B32.fadd d a b) ∧ bounded (B32.value a - B32.value b) 0 (B32.fsub d a b) ∧
      bounded (B32.value a * B32.value b) 149 (B32.fmul d a b) ∧ bounded (B32.value a) 1 (B32.fhalf d a)

/-! ## The host's side -/

/-- R152: the increments a host loads for a 19 kHz pilot are the binary32 numbers nearest to `2π·19000/SampleRate`. -/
def Obligations.DefaultIncrementsAreNearest : Prop :=
  defaultPhaseInc = 0x3F1F2C8D ∧ IsNearest (phaseIncDesign 19000 192000) 0x3F1F2C8D ∧
    IsNearest (phaseIncDesign 19000 96000) 0x3F9F2C8D ∧ IsNearest (phaseIncDesign 19000 48000) 0x401F2C8D ∧
    IsNearest (phaseIncDesign 19000 44100) 0x402D402A ∧ IsNearest (phaseIncDesign 19000 384000) 0x3E9F2C8D

/-- R190: for every cutoff below half the sample rate and every positive resonance, the lowpass design has gain exactly 1
at zero frequency, the numerator `b0·(1 + z⁻¹)²`, and its poles inside the unit circle; they have the modulus `sqrt(a2)` that
R190 names when `Q_LP > 1/2`, which the defaults meet. -/
def Obligations.LowpassDesignUnitGain : Prop :=
  ∀ fs fc q : ℝ, 0 < fc → fc < fs / 2 → 0 < q →
    let c := lowpassDesign fs fc q
    1 + c.a1 + c.a2 ≠ 0 ∧ (c.b0 + c.b1 + c.b2) / (1 + c.a1 + c.a2) = 1 ∧ c.b1 = 2 * c.b0 ∧ c.b2 = c.b0 ∧
      ∀ z : ℂ, z ^ 2 + c.a1 * z + c.a2 = 0 → ‖z‖ < 1 ∧ (1 / 2 < q → ‖z‖ = Real.sqrt c.a2)

/-- R188: the literal preemphasis set meets PC1, PC2 and PC3 and fails PC4. -/
def Obligations.LiteralPreemphasisFailsOnlyStability : Prop :=
  ∀ tau fs : ℝ, 0 < tau → 0 < fs →
    let c := literalPreemphasis tau fs
    PreFirstOrder c ∧ PreBilinear tau fs c ∧ PreRising tau fs c ∧ ¬ PreStable c

/-- R63, R64: the bridge forwards an aligned four-byte access of the window to the word address it stands for, with the
lowest byte in bits 7:0, and no access that is misaligned or of another size. -/
def Obligations.BridgeForwardsWholeWords : Prop :=
  ∀ (base : Nat) (a : BusAddr) (w : Word), base % 4 = 0 →
    bridgeWrite base (base + 4 * a.toNat) (wordBytes w) = some (.write a w) ∧
    bridgeRead base (base + 4 * a.toNat) 4 = some (.read a) ∧
    ∀ (byteAddr size : Nat) (bytes : List Byte),
      (byteAddr % 4 ≠ 0 ∨ size ≠ 4 → bridgeRead base byteAddr size = none) ∧
      (byteAddr % 4 ≠ 0 ∨ bytes.length ≠ 4 → bridgeWrite base byteAddr bytes = none)

/-- R265: the boot sequence, run from reset, ends in the RUN phase with the increment and the twenty coefficients loaded,
the mode bits set, and nothing refused. Without step 1 the pilot is `+0.0` in every sample. Without step 2 `composite`
is the external sample added to `pilot·0.09` in stereo, to a zero in mono mode: R265's `+0.0` plus the external sample
wherever the pilot is a zero or not mixed in (log entry 20), an external `−0.0` apart. -/
def Obligations.BootScriptConfigures : Prop :=
  (∀ (inc : Word) (c0 c1 c2 c3 : Coefs Word) (stereo extEn : Bool),
    ∃ t, core.run 22 { State.reset with pending := scriptBoot inc c0 c1 c2 c3 stereo extEn } = .next t ∧
      t.pending = [] ∧ t.ctrl = { run := true, stereo := stereo, extEn := extEn } ∧ t.NoFlag ∧
      t.dp.phaseInc = inc ∧ t.dp.phase = 0x00000000 ∧
      ∀ i, t.dp.bq.get i =
        let c := match i with
          | .preemphL => c0
          | .preemphR => c1
          | .lowpassL => c2
          | .lowpassR => c3
        { Biquad.const (0x00000000 : Word) with b0 := c.b0, b1 := c.b1, b2 := c.b2, a1 := c.a1, a2 := c.a2 }) ∧
  (∀ s : State, s.ctrl.run = true → s.dp.phase = 0x00000000 → s.dp.phaseInc = 0x00000000 →
    ∃ t, exec .sample s = .next t ∧ t.dp.v.pilot = 0x00000000 ∧ t.dp.phase = 0x00000000 ∧ t.dp.phaseInc = 0x00000000) ∧
  ∀ s : State, s.ctrl.run = true → PhaseLegal s.dp.phase →
    (∀ i, SameCoefs (s.dp.bq.get i) (.const 0x00000000) ∧ FiniteHistory (s.dp.bq.get i)) →
    B32.isFinite s.dp.v.leftRaw = true → B32.isFinite s.dp.v.rightRaw = true →
    let e := if s.ctrl.extEn = true then s.dp.v.externalMpx else 0x00000000
    ∃ t mix d d', exec .sample s = .next t ∧ t.dp.v.composite = B32.fadd d mix e ∧ B32.isFinite mix = true ∧
      (s.ctrl.stereo = true → B32.value mix = B32.value (B32.fmul d' t.dp.v.pilot B32.c009)) ∧
      (s.ctrl.stereo = false → B32.isZero mix = true) ∧
      (s.ctrl.stereo = false ∨ B32.isZero t.dp.v.pilot = true → e ≠ 0x80000000 →
        t.dp.v.composite = B32.fadd d 0x00000000 e)
end

