-- ==== Sys2Proof/Laws/Binary32.lean ====
section
/-! SUPPORT. The laws of the binary32 arithmetic: fields of a word, the order of magnitudes, and what rounding gives. -/

namespace Sys2Proof.Machine.B32

/-! ### Fields of a word -/

theorem mag_lt (w : Word) : mag w < 2 ^ 31 := Nat.mod_lt _ (by norm_num)

theorem toNat_eq (w : Word) : w.toNat = (if isNeg w = true then 2 ^ 31 else 0) + mag w := by
  have := w.isLt
  unfold isNeg mag
  split <;> simp_all <;> omega

theorem pack_toNat (neg : Bool) {m : Nat} (h : m < 2 ^ 31) :
    (pack neg m).toNat = (if neg = true then 2 ^ 31 else 0) + m := by
  cases neg <;> simp [pack] <;> omega

@[simp] theorem mag_pack (neg : Bool) {m : Nat} (h : m < 2 ^ 31) : mag (pack neg m) = m := by
  unfold mag
  rw [pack_toNat neg h]
  cases neg <;> simp [Nat.mod_eq_of_lt (show m < 2147483648 from h)]

@[simp] theorem isNeg_pack (neg : Bool) {m : Nat} (h : m < 2 ^ 31) : isNeg (pack neg m) = neg := by
  unfold isNeg
  rw [pack_toNat neg h]
  cases neg <;> simp
  exact h

theorem ext_mag {v w : Word} (hs : isNeg v = isNeg w) (hm : mag v = mag w) : v = w := by
  apply BitVec.eq_of_toNat_eq
  rw [toNat_eq v, toNat_eq w, hs, hm]

@[simp] theorem pack_mag (w : Word) : pack (isNeg w) (mag w) = w :=
  ext_mag (isNeg_pack _ (mag_lt w)) (mag_pack _ (mag_lt w))

theorem isFinite_iff (w : Word) : isFinite w = true ↔ mag w < infMag := by
  have := mag_lt w
  simp [isFinite, expField, infMag]
  omega

theorem isFinite_eq_false_iff (w : Word) : isFinite w = false ↔ infMag ≤ mag w := by
  rw [← Bool.not_eq_true, isFinite_iff]
  omega

theorem isInf_iff (w : Word) : isInf w = true ↔ mag w = infMag := by
  have := mag_lt w
  simp [isInf, expField, fracField, infMag]
  omega

theorem isNaN_iff (w : Word) : isNaN w = true ↔ infMag < mag w := by
  have := mag_lt w
  simp [isNaN, expField, fracField, infMag]
  omega

theorem isZero_iff (w : Word) : isZero w = true ↔ mag w = 0 := by simp [isZero]

theorem isNaN_of_finite {w : Word} (h : isFinite w = true) : isNaN w = false := by
  rw [isFinite_iff] at h
  rw [← Bool.not_eq_true, isNaN_iff]
  omega

theorem isInf_of_finite {w : Word} (h : isFinite w = true) : isInf w = false := by
  rw [isFinite_iff] at h
  rw [← Bool.not_eq_true, isInf_iff]
  omega

theorem isNaN_of_inf {w : Word} (h : isInf w = true) : isNaN w = false := by
  rw [isInf_iff] at h
  rw [← Bool.not_eq_true, isNaN_iff]
  omega

theorem isFinite_of_not {w : Word} (hn : isNaN w = false) (hi : isInf w = false) : isFinite w = true := by
  rw [← Bool.not_eq_true, isNaN_iff] at hn
  rw [← Bool.not_eq_true, isInf_iff] at hi
  rw [isFinite_iff]
  omega

theorem isFinite_of_zero {w : Word} (h : isZero w = true) : isFinite w = true := by
  rw [isZero_iff] at h
  rw [isFinite_iff, h]
  decide

/-! ### Free patterns -/

@[simp] theorem isNaN_asNaN (r : Word) : isNaN (asNaN r) = true := by
  unfold asNaN
  split
  · assumption
  · decide

theorem asNaN_of_isNaN {r : Word} (h : isNaN r = true) : asNaN r = r := if_pos h

@[simp] theorem isNaN_drawNaN (d : Nat) : isNaN (drawNaN d) = true := isNaN_asNaN _

/-! ### Magnitudes -/

/-- A significand of at most 24 bits at exponent `t`, with the carry into the next exponent. -/
theorem magUnits_compose {t q : Nat} (hq : q ≤ 2 ^ 24) (h : t = 0 ∨ 2 ^ 23 ≤ q) :
    magUnits (t * 2 ^ 23 + q) = q * 2 ^ t := by
  unfold magUnits
  by_cases hc : q = 2 ^ 24
  · subst hc
    have e : (t * 2 ^ 23 + 2 ^ 24) / 2 ^ 23 = t + 2 := by omega
    have f : (t * 2 ^ 23 + 2 ^ 24) % 2 ^ 23 = 0 := by omega
    rw [e, f, if_neg (by omega), show t + 2 - 1 = t + 1 by omega, pow_succ]
    ring
  · by_cases hl : q < 2 ^ 23
    · obtain rfl : t = 0 := by omega
      rw [if_pos (by omega), pow_zero]
      omega
    · have e : (t * 2 ^ 23 + q) / 2 ^ 23 = t + 1 := by omega
      have f : (t * 2 ^ 23 + q) % 2 ^ 23 = q - 2 ^ 23 := by omega
      rw [e, f, if_neg (by omega), show t + 1 - 1 = t by omega, show 2 ^ 23 + (q - 2 ^ 23) = q by omega]

/-- Every pattern is a significand and an exponent. -/
theorem exists_compose (m : Nat) : ∃ t q, m = t * 2 ^ 23 + q ∧ q < 2 ^ 24 ∧ (t = 0 ∨ 2 ^ 23 ≤ q) := by
  by_cases h : m < 2 ^ 24
  · exact ⟨0, m, by omega, h, .inl rfl⟩
  · exact ⟨m / 2 ^ 23 - 1, 2 ^ 23 + m % 2 ^ 23, by omega, by omega, .inr (by omega)⟩

/-- Every number with a significand of at most 24 bits, in the range of the exponent, is a magnitude of the format. -/
theorem exists_magUnits_eq {q t : Nat} (hq : q < 2 ^ 24) (ht : t < 254) : ∃ m, m < infMag ∧ magUnits m = q * 2 ^ t := by
  induction t generalizing q with
  | zero => exact ⟨q, by unfold infMag; omega, by simpa using magUnits_compose (t := 0) (le_of_lt hq) (.inl rfl)⟩
  | succ t ih =>
    by_cases h : 2 ^ 23 ≤ q
    · exact ⟨(t + 1) * 2 ^ 23 + q, by unfold infMag; omega, magUnits_compose (le_of_lt hq) (.inr h)⟩
    · obtain ⟨m, hm, hu⟩ := ih (q := 2 * q) (by omega) (by omega)
      exact ⟨m, hm, by rw [hu, pow_succ]; ring⟩

/-- A larger pattern is a larger number. -/
theorem magUnits_lt_succ (m : Nat) : magUnits m < magUnits (m + 1) := by
  obtain ⟨t, q, rfl, hq, h⟩ := exists_compose m
  rw [add_assoc, magUnits_compose (le_of_lt hq) h, magUnits_compose hq (by omega)]
  exact Nat.mul_lt_mul_of_pos_right (Nat.lt_succ_self q) (by positivity)

theorem magUnits_strictMono : StrictMono magUnits := strictMono_nat_of_lt_succ magUnits_lt_succ

@[simp] theorem magUnits_zero : magUnits 0 = 0 := by decide

/-! ### Rounding -/

/-- `roundShift` is the nearest integer quotient, the even one of two. -/
theorem roundShift_spec (n sh : Nat) :
    2 * n ≤ (2 * roundShift n sh + 1) * 2 ^ sh ∧ 2 * (roundShift n sh * 2 ^ sh) ≤ 2 * n + 2 ^ sh ∧
      ((2 * n = (2 * roundShift n sh + 1) * 2 ^ sh ∨ 2 * (roundShift n sh * 2 ^ sh) = 2 * n + 2 ^ sh) →
        roundShift n sh % 2 = 0) := by
  have hp : 0 < 2 ^ sh := by positivity
  have hd := Nat.div_add_mod n (2 ^ sh)
  have hm := Nat.mod_lt n hp
  unfold roundShift
  generalize hP : 2 ^ sh = P at *
  generalize hQ : n / P = q at *
  generalize hR : n % P = r at *
  simp only
  rw [mul_comm] at hd
  split
  next hc =>
    have e : (q + 1) * P = q * P + P := by ring
    have e2 : (2 * (q + 1) + 1) * P = 2 * (q * P) + 3 * P := by ring
    rw [e, e2]
    refine ⟨by omega, by omega, fun h => ?_⟩
    omega
  next hc =>
    have e2 : (2 * q + 1) * P = 2 * (q * P) + P := by ring
    rw [e2]
    refine ⟨by omega, by omega, fun h => ?_⟩
    omega

/-- The parts of `roundMag`: the dropped bits `t + k`, the significand `q`, and what is known of them. -/
theorem roundMag_parts (n k : Nat) :
    ∃ t q, q = roundShift n (t + k) ∧ q ≤ 2 ^ 24 ∧ (t = 0 ∨ (2 ^ 23 ≤ q ∧ 2 ^ 23 * 2 ^ (t + k) ≤ n)) ∧
      roundMag n k = min (t * 2 ^ 23 + q) infMag := by
  refine ⟨max k (Nat.log2 n - 23) - k, _, rfl, ?_, ?_, ?_⟩
  · rw [show max k (Nat.log2 n - 23) - k + k = max k (Nat.log2 n - 23) by omega]
    obtain ⟨-, h, -⟩ := roundShift_spec n (max k (Nat.log2 n - 23))
    have hn : n < 2 ^ 24 * 2 ^ max k (Nat.log2 n - 23) := by
      rw [← pow_add]
      exact lt_of_lt_of_le (Nat.lt_log2_self) (Nat.pow_le_pow_right (by norm_num) (by omega))
    generalize 2 ^ max k (Nat.log2 n - 23) = P at *
    generalize roundShift n (max k (Nat.log2 n - 23)) = q at *
    by_contra hc
    have : (2 ^ 24 + 1) * P ≤ q * P := Nat.mul_le_mul_right _ (by omega)
    omega
  · by_cases ht : max k (Nat.log2 n - 23) - k = 0
    · exact .inl ht
    · right
      rw [show max k (Nat.log2 n - 23) - k + k = max k (Nat.log2 n - 23) by omega]
      have hn : 2 ^ 23 * 2 ^ max k (Nat.log2 n - 23) ≤ n := by
        have h0 : n ≠ 0 := by rintro rfl; simp at ht
        rw [← pow_add]
        exact le_trans (Nat.pow_le_pow_right (by norm_num) (by omega)) (Nat.log2_self_le h0)
      refine ⟨?_, hn⟩
      obtain ⟨h, -, -⟩ := roundShift_spec n (max k (Nat.log2 n - 23))
      have hp : 0 < 2 ^ max k (Nat.log2 n - 23) := by positivity
      generalize 2 ^ max k (Nat.log2 n - 23) = P at *
      generalize roundShift n (max k (Nat.log2 n - 23)) = q at *
      by_contra hc
      have : (2 * q + 1) * P < 2 * 2 ^ 23 * P := Nat.mul_lt_mul_of_pos_right (by omega) hp
      omega
  · rw [show max k (Nat.log2 n - 23) - k + k = max k (Nat.log2 n - 23) by omega, Nat.mul_comm _ (2 ^ 23)]
    rfl

theorem roundMag_le (n k : Nat) : roundMag n k ≤ infMag := Nat.min_le_right _ _

theorem roundMag_lt (n k : Nat) : roundMag n k < 2 ^ 31 := lt_of_le_of_lt (roundMag_le n k) (by decide)

/-- Of the multiples of `P`, none is nearer to `n` than one within `P / 2`, and an equally near other one means a tie. -/
theorem nearest_multiple {n P q c : Int} (hP : 0 < P) (h1 : 2 * n ≤ (2 * q + 1) * P) (h2 : 2 * (q * P) ≤ 2 * n + P) :
    |q * P - n| ≤ |c * P - n| ∧
      (|q * P - n| = |c * P - n| → c ≠ q → 2 * n = (2 * q + 1) * P ∨ 2 * (q * P) = 2 * n + P) := by
  have hq : |q * P - n| * 2 ≤ P := by
    rcases abs_cases (q * P - n) with ⟨e, -⟩ | ⟨e, -⟩ <;> rw [e] <;> linarith
  by_cases hc : c = q
  · subst hc
    exact ⟨le_refl _, fun _ h => absurd rfl h⟩
  · have hd : P ≤ |c * P - q * P| := by
      rw [← sub_mul, abs_mul, abs_of_pos hP]
      have : 1 ≤ |c - q| := Int.one_le_abs (sub_ne_zero.2 hc)
      nlinarith
    have ht : |c * P - q * P| ≤ |c * P - n| + |q * P - n| := by
      have : c * P - q * P = (c * P - n) - (q * P - n) := by ring
      rw [this]
      exact abs_sub _ _
    refine ⟨by linarith, fun he _ => ?_⟩
    have hh : |q * P - n| * 2 = P := by linarith
    rcases abs_cases (q * P - n) with ⟨e, -⟩ | ⟨e, -⟩ <;> rw [e] at hh
    · right; linarith
    · left; linarith

/-- A number of the format is a multiple of `2^t`, or lies below every number with exponent `t` and 24 bits. -/
theorem magUnits_grid (m t : Nat) : (∃ c, magUnits m = c * 2 ^ t) ∨ (0 < t ∧ magUnits m < 2 ^ 23 * 2 ^ t) := by
  obtain ⟨e, f, rfl, hf, h⟩ := exists_compose m
  rw [magUnits_compose (le_of_lt hf) h]
  by_cases ht : t ≤ e
  · left
    obtain ⟨u, rfl⟩ := Nat.exists_eq_add_of_le ht
    exact ⟨f * 2 ^ u, by rw [pow_add]; ring⟩
  · right
    refine ⟨by omega, ?_⟩
    obtain ⟨u, rfl⟩ : ∃ u, t = e + 1 + u := ⟨t - (e + 1), by omega⟩
    have h1 : 0 < 2 ^ e := by positivity
    have h2 : 1 ≤ 2 ^ u := Nat.one_le_two_pow
    calc f * 2 ^ e < 2 ^ 24 * 2 ^ e := Nat.mul_lt_mul_of_pos_right hf h1
      _ = 2 ^ 23 * (2 ^ e * 2 * 1) := by ring
      _ ≤ 2 ^ 23 * (2 ^ e * 2 * 2 ^ u) := by gcongr
      _ = 2 ^ 23 * 2 ^ (e + 1 + u) := by ring

/-- When it is no infinity, `roundMag n k` is the nearest number of the format to `n · 2^-k`, the even one of two. -/
theorem roundMag_nearest (n k m : Nat) (hr : roundMag n k < infMag) :
    |(magUnits (roundMag n k) : Int) * 2 ^ k - n| ≤ |(magUnits m : Int) * 2 ^ k - n| ∧
      (|(magUnits (roundMag n k) : Int) * 2 ^ k - n| = |(magUnits m : Int) * 2 ^ k - n| → m ≠ roundMag n k →
        roundMag n k % 2 = 0) := by
  obtain ⟨t, q, hq, hle, hbig, he⟩ := roundMag_parts n k
  rw [he] at hr ⊢
  rw [Nat.min_eq_left (by omega), magUnits_compose hle (by omega)]
  obtain ⟨h1, h2, h3⟩ := roundShift_spec n (t + k)
  rw [← hq] at h1 h2 h3
  have hP : (0 : Int) < 2 ^ (t + k) := by positivity
  have h1' : 2 * (n : Int) ≤ (2 * q + 1) * 2 ^ (t + k) := by exact_mod_cast h1
  have h2' : 2 * ((q : Int) * 2 ^ (t + k)) ≤ 2 * n + 2 ^ (t + k) := by exact_mod_cast h2
  have hqP : ((q * 2 ^ t : Nat) : Int) * 2 ^ k = q * 2 ^ (t + k) := by push_cast; rw [pow_add]; ring
  rw [hqP]
  rcases magUnits_grid m t with ⟨c, hc⟩ | ⟨ht, hlt⟩
  · have hcP : ((magUnits m : Nat) : Int) * 2 ^ k = (c : Int) * 2 ^ (t + k) := by
      rw [hc]; push_cast; rw [pow_add]; ring
    rw [hcP]
    obtain ⟨ha, hb⟩ := nearest_multiple (c := (c : Int)) hP h1' h2'
    refine ⟨ha, fun hd hm => ?_⟩
    have hcq : (c : Int) ≠ q := by
      intro e
      apply hm
      apply magUnits_strictMono.injective
      rw [magUnits_compose hle (by omega), hc, Int.ofNat_inj.1 e]
    have := h3 (by
      rcases hb hd hcq with h | h
      · left; exact_mod_cast h
      · right; exact_mod_cast h)
    omega
  · obtain ⟨-, hn⟩ := hbig.resolve_left (by omega)
    have hn' : (2 ^ 23 : Int) * 2 ^ (t + k) ≤ n := by exact_mod_cast hn
    have hm' : ((magUnits m : Nat) : Int) * 2 ^ k < 2 ^ 23 * 2 ^ (t + k) := by
      rw [pow_add, ← mul_assoc]
      have : ((magUnits m : Nat) : Int) < 2 ^ 23 * 2 ^ t := by exact_mod_cast hlt
      exact mul_lt_mul_of_pos_right this (by positivity)
    obtain ⟨ha, -⟩ := nearest_multiple (c := 2 ^ 23) hP h1' h2'
    have hs : |(2 ^ 23 : Int) * 2 ^ (t + k) - n| < |((magUnits m : Nat) : Int) * 2 ^ k - n| := by
      rw [abs_of_nonpos (by linarith), abs_of_nonpos (by linarith)]
      linarith
    exact ⟨le_of_lt (lt_of_le_of_lt ha hs), fun hd _ => absurd hd (ne_of_lt (lt_of_le_of_lt ha hs))⟩

/-- Below exponent 253 a rounded number is finite and its operand below the overflow threshold. -/
theorem below_overflow {n k t q : Nat} (ht : t < 253) (hq : q ≤ 2 ^ 24) (h : 2 * n ≤ (2 * q + 1) * 2 ^ (t + k)) :
    2 * n < (2 ^ 25 - 1) * 2 ^ (253 + k) := by
  obtain ⟨u, hu⟩ : ∃ u, 253 = t + 1 + u := ⟨252 - t, by omega⟩
  rw [hu]
  have hp : 0 < 2 ^ (t + k) := by positivity
  have h2u : 1 ≤ 2 ^ u := Nat.one_le_two_pow
  have e : 2 ^ (t + 1 + u + k) = 2 ^ (t + k) * (2 * 2 ^ u) := by
    rw [show t + 1 + u + k = t + k + (u + 1) by omega, pow_add _ (t + k), pow_succ, mul_comm (2 ^ u) 2]
  rw [e]
  calc 2 * n ≤ (2 * q + 1) * 2 ^ (t + k) := h
    _ ≤ (2 ^ 25 + 1) * 2 ^ (t + k) := by gcongr; omega
    _ < (2 ^ 25 - 1) * (2 ^ (t + k) * (2 * 1)) := by omega
    _ ≤ (2 ^ 25 - 1) * (2 ^ (t + k) * (2 * 2 ^ u)) := by gcongr

/-- Above exponent 253 an operand is beyond the overflow threshold. -/
theorem above_overflow {n k t : Nat} (ht : 253 < t) (h : 2 ^ 23 * 2 ^ (t + k) ≤ n) :
    (2 ^ 25 - 1) * 2 ^ (253 + k) ≤ 2 * n := by
  obtain ⟨u, rfl⟩ : ∃ u, t = 253 + 1 + u := ⟨t - 254, by omega⟩
  have h2u : 1 ≤ 2 ^ u := Nat.one_le_two_pow
  have e : 2 ^ (253 + 1 + u + k) = 2 ^ (253 + k) * (2 * 2 ^ u) := by
    rw [show 253 + 1 + u + k = 253 + k + (u + 1) by omega, pow_add _ (253 + k), pow_succ, mul_comm (2 ^ u) 2]
  rw [e] at h
  have : 2 ^ 23 * (2 ^ (253 + k) * (2 * 1)) ≤ 2 ^ 23 * (2 ^ (253 + k) * (2 * 2 ^ u)) := by gcongr
  generalize 2 ^ (253 + k) = P at *
  omega

/-- At exponent 253 the significand reaches 2^24, which is infinity, exactly from the overflow threshold on. -/
theorem at_overflow {n q P : Nat} (hP : 0 < P) (hle : q ≤ 16777216) (h1 : 2 * n ≤ (2 * q + 1) * P)
    (h2 : 2 * (q * P) ≤ 2 * n + P) (h3 : 2 * n = (2 * q + 1) * P → q % 2 = 0) :
    q = 16777216 ↔ 33554431 * P ≤ 2 * n := by
  constructor
  · rintro rfl
    omega
  · intro h
    by_contra hc
    by_cases hd : q = 16777215
    · have hm : (2 * q + 1) * P = 33554431 * P := by
        rw [hd]
      have he := h3 (le_antisymm h1 (hm ▸ h))
      rw [hd] at he
      exact absurd he (by norm_num)
    · have : (2 * q + 1) * P ≤ 33554429 * P := Nat.mul_le_mul_right _ (by omega)
      omega

/-- When a magnitude rounds to infinity: at half a unit in the last place above the largest finite number (R123). -/
theorem roundMag_eq_inf_iff (n k : Nat) : roundMag n k = infMag ↔ (2 ^ 25 - 1) * 2 ^ (253 + k) ≤ 2 * n := by
  obtain ⟨t, q, hq, hle, hbig, he⟩ := roundMag_parts n k
  obtain ⟨h1, h2, h3⟩ := roundShift_spec n (t + k)
  rw [← hq] at h1 h2 h3
  have hi : infMag = 253 * 2 ^ 23 + 2 ^ 24 := by decide
  rw [he, min_eq_right_iff]
  rcases lt_trichotomy t 253 with ht | ht | ht
  · exact iff_of_false (by omega) (not_le.2 (below_overflow ht hle h1))
  · subst ht
    have := at_overflow (by positivity) hle h1 h2 fun h => h3 (.inl h)
    rw [show (2 ^ 25 - 1 : Nat) = 33554431 by norm_num, ← this, hi]
    clear this h1 h2 h3 hbig he
    omega
  · obtain ⟨hq23, hn⟩ := hbig.resolve_left (by omega)
    refine iff_of_true ?_ (above_overflow ht hn)
    clear h1 h2 h3 hbig he hn
    omega

/-- The largest finite number. -/
theorem magUnits_lt_of_finite {m : Nat} (hm : m < infMag) : magUnits m ≤ (2 ^ 24 - 1) * 2 ^ 253 := by
  rw [← magUnits_compose (t := 253) (q := 2 ^ 24 - 1) (by norm_num) (by norm_num)]
  exact magUnits_strictMono.monotone (by rw [show infMag = 253 * 2 ^ 23 + 2 ^ 24 by decide] at hm; omega)

/-- Both arguments of `roundShift` scaled by a power of two. -/
theorem roundShift_scale (n sh j : Nat) : roundShift (2 ^ j * n) (sh + j) = roundShift n sh := by
  have hj : 0 < 2 ^ j := by positivity
  have hm : ∀ a b : Nat, 2 ^ j * a < 2 ^ j * b ↔ a < b := fun a b => Nat.mul_lt_mul_left hj
  have he : ∀ a b : Nat, 2 ^ j * a = 2 ^ j * b ↔ a = b := fun a b => Nat.mul_right_inj (by omega)
  have hc : ∀ a : Nat, 2 * (2 ^ j * a) = 2 ^ j * (2 * a) := fun a => by ring
  unfold roundShift
  rw [pow_add, mul_comm (2 ^ sh) (2 ^ j), Nat.mul_div_mul_left _ _ hj, Nat.mul_mod_mul_left]
  simp only [hc, hm, he]

/-- Rounding does not depend on the unit the number is counted in. -/
theorem roundMag_scale (n k j : Nat) : roundMag (2 ^ j * n) (k + j) = roundMag n k := by
  by_cases hn : n = 0
  · subst hn
    have h0 : ∀ k, roundMag 0 k = 0 := fun k => by simp [roundMag, roundShift]
    rw [mul_zero, h0, h0]
  · have hl : Nat.log2 (2 ^ j * n) = Nat.log2 n + j := by
      have h2 : 2 ^ j * n ≠ 0 := Nat.mul_ne_zero (by positivity) hn
      rw [Nat.log2_eq_iff h2, pow_add, add_right_comm, pow_add, mul_comm (2 ^ j) n]
      exact ⟨Nat.mul_le_mul_right _ (Nat.log2_self_le hn), Nat.mul_lt_mul_of_pos_right Nat.lt_log2_self (by positivity)⟩
    have hs : max (k + j) (Nat.log2 (2 ^ j * n) - 23) = max k (Nat.log2 n - 23) + j := by omega
    unfold roundMag
    simp only [hs, roundShift_scale]
    rw [show max k (Nat.log2 n - 23) + j - (k + j) = max k (Nat.log2 n - 23) - k by omega]

/-- A number of the format rounds to itself. -/
theorem roundMag_magUnits {m : Nat} (k : Nat) (hm : m < infMag) : roundMag (magUnits m * 2 ^ k) k = m := by
  have hr : roundMag (magUnits m * 2 ^ k) k < infMag := by
    refine lt_of_le_of_ne (roundMag_le _ _) fun h => ?_
    rw [roundMag_eq_inf_iff] at h
    have hb : magUnits m * 2 ^ k ≤ (2 ^ 24 - 1) * 2 ^ 253 * 2 ^ k :=
      Nat.mul_le_mul_right _ (magUnits_lt_of_finite hm)
    rw [mul_assoc, ← pow_add] at hb
    have hp : 0 < 2 ^ (253 + k) := by positivity
    generalize 2 ^ (253 + k) = P at *
    omega
  obtain ⟨h, -⟩ := roundMag_nearest (magUnits m * 2 ^ k) k m hr
  push_cast at h
  rw [sub_self, abs_zero] at h
  have h0 := abs_eq_zero.1 (le_antisymm h (abs_nonneg _))
  have h1 : (magUnits (roundMag (magUnits m * 2 ^ k) k) : Int) = magUnits m :=
    mul_right_cancel₀ (b := (2 : Int) ^ k) (by positivity) (by linarith)
  exact magUnits_strictMono.injective (by exact_mod_cast h1)

/-- Rounding keeps the order against the numbers of the format. -/
theorem roundMag_le_of_le {n k m : Nat} (hm : m < infMag) (h : n ≤ magUnits m * 2 ^ k) : roundMag n k ≤ m := by
  by_cases hi : roundMag n k = infMag
  · have hm' := roundMag_magUnits k hm
    rw [roundMag_eq_inf_iff] at hi
    have : roundMag (magUnits m * 2 ^ k) k = infMag := (roundMag_eq_inf_iff _ _).2 (by omega)
    omega
  · have hr := lt_of_le_of_ne (roundMag_le n k) hi
    by_contra hc
    have hlt : magUnits m < magUnits (roundMag n k) := magUnits_strictMono (by omega)
    obtain ⟨h', -⟩ := roundMag_nearest n k m hr
    have hp : (0 : Int) < 2 ^ k := by positivity
    have a : (n : Int) ≤ magUnits m * 2 ^ k := by exact_mod_cast h
    have b : (magUnits m : Int) * 2 ^ k < magUnits (roundMag n k) * 2 ^ k :=
      mul_lt_mul_of_pos_right (by exact_mod_cast hlt) hp
    rw [abs_of_nonneg (by linarith), abs_of_nonneg (by linarith)] at h'
    linarith

theorem le_roundMag_of_le {n k m : Nat} (hm : m ≤ infMag) (h : magUnits m * 2 ^ k ≤ n) : m ≤ roundMag n k := by
  by_cases hi : roundMag n k = infMag
  · omega
  · have hr := lt_of_le_of_ne (roundMag_le n k) hi
    by_contra hc
    have hlt : magUnits (roundMag n k) < magUnits m := magUnits_strictMono (by omega)
    obtain ⟨h', -⟩ := roundMag_nearest n k m hr
    have hp : (0 : Int) < 2 ^ k := by positivity
    have a : (magUnits m : Int) * 2 ^ k ≤ n := by exact_mod_cast h
    have b : (magUnits (roundMag n k) : Int) * 2 ^ k < magUnits m * 2 ^ k :=
      mul_lt_mul_of_pos_right (by exact_mod_cast hlt) hp
    rw [abs_of_nonpos (by linarith), abs_of_nonpos (by linarith)] at h'
    linarith

end Sys2Proof.Machine.B32
end

