-- ==== Sys2Proof/Laws/State.lean ====
section
/-! SUPPORT. What each small update of the state leaves in each field, and reading back what was written. -/

namespace Sys2Proof.Machine

variable {F : Type}

/-! ### Register files -/

@[simp] theorem Values.get_set_same (v : Values F) (r : VReg) (x : F) : (v.set r x).get r = x := by cases r <;> rfl

theorem Values.get_set_ne (v : Values F) {r q : VReg} (x : F) (h : q ≠ r) : (v.set r x).get q = v.get q := by
  cases r <;> cases q <;> first | rfl | exact absurd rfl h

@[simp] theorem Biquad.get_set_same (b : Biquad F) (r : BqReg) (x : F) : (b.set r x).get r = x := by cases r <;> rfl

theorem Biquad.get_set_ne (b : Biquad F) {r q : BqReg} (x : F) (h : q ≠ r) : (b.set r x).get q = b.get q := by
  cases r <;> cases q <;> first | rfl | exact absurd rfl h

@[simp] theorem Biquads.get_set_same (q : Biquads F) (i : BqInst) (b : Biquad F) : (q.set i b).get i = b := by
  cases i <;> rfl

theorem Biquads.get_set_ne (q : Biquads F) {i j : BqInst} (b : Biquad F) (h : j ≠ i) : (q.set i b).get j = q.get j := by
  cases i <;> cases j <;> first | rfl | exact absurd rfl h

/-! ### Sticky flags -/

@[simp] theorem Status.has_raise_same (st : Status) (f : ErrFlag) : (st.raise f).has f = true := by cases f <;> rfl

theorem Status.has_raise_ne (st : Status) {f g : ErrFlag} (h : g ≠ f) : (st.raise f).has g = st.has g := by
  cases f <;> cases g <;> first | rfl | exact absurd rfl h

theorem Status.has_raise_of_has (st : Status) (f : ErrFlag) {g : ErrFlag} (h : st.has g = true) :
    (st.raise f).has g = true := by
  cases f <;> cases g <;> first | rfl | exact h

@[simp] theorem Status.busy_raise (st : Status) (f : ErrFlag) : (st.raise f).busy = st.busy := by cases f <;> rfl

/-! ### `refuse` -/

@[simp] theorem refuse_dp (f : ErrFlag) (s : State) : (refuse f s).dp = s.dp := rfl
@[simp] theorem refuse_ctrl (f : ErrFlag) (s : State) : (refuse f s).ctrl = s.ctrl := rfl
@[simp] theorem refuse_status (f : ErrFlag) (s : State) : (refuse f s).status = s.status.raise f := rfl
@[simp] theorem refuse_pending (f : ErrFlag) (s : State) : (refuse f s).pending = s.pending := rfl
@[simp] theorem refuse_reply (f : ErrFlag) (s : State) : (refuse f s).reply = s.reply := rfl

/-! ### `operate` -/

@[simp] theorem operate_dp (op : Datapath Word → Datapath Word) (s : State) : (operate op s).dp = op s.dp := rfl
@[simp] theorem operate_ctrl (op : Datapath Word → Datapath Word) (s : State) : (operate op s).ctrl = s.ctrl := rfl
@[simp] theorem operate_status (op : Datapath Word → Datapath Word) (s : State) :
    (operate op s).status = { s.status with busy := false } := rfl
@[simp] theorem operate_pending (op : Datapath Word → Datapath Word) (s : State) :
    (operate op s).pending = s.pending := rfl
@[simp] theorem operate_reply (op : Datapath Word → Datapath Word) (s : State) : (operate op s).reply = s.reply := rfl

@[simp] theorem Status.has_clear_busy (st : Status) (b : Bool) (f : ErrFlag) :
    Status.has f { st with busy := b } = st.has f := by cases f <;> rfl

/-! ### `resetCore` -/

@[simp] theorem resetCore_ctrl (s : State) : (resetCore s).ctrl = State.reset.ctrl := rfl
@[simp] theorem resetCore_status (s : State) : (resetCore s).status = State.reset.status := rfl
@[simp] theorem resetCore_pending (s : State) : (resetCore s).pending = s.pending := rfl
@[simp] theorem resetCore_reply (s : State) : (resetCore s).reply = .quiet := rfl
@[simp] theorem resetCore_draws (s : State) : (resetCore s).dp.draws = s.dp.draws := rfl
@[simp] theorem resetCore_values (s : State) : (resetCore s).dp.v = .const 0 := rfl
@[simp] theorem resetCore_phase (s : State) : (resetCore s).dp.phase = 0 := rfl
@[simp] theorem resetCore_phaseInc (s : State) : (resetCore s).dp.phaseInc = 0 := rfl
@[simp] theorem resetCore_bq (s : State) : (resetCore s).dp.bq = .const 0 := rfl
@[simp] theorem resetCore_upc (s : State) : (resetCore s).dp.upc = 0 := rfl

/-! ### `storeReg` -/

@[simp] theorem storeReg_status (r : BusReg) (w : Word) (s : State) : (storeReg r w s).status = s.status := by
  cases r <;> rfl

@[simp] theorem storeReg_pending (r : BusReg) (w : Word) (s : State) : (storeReg r w s).pending = s.pending := by
  cases r <;> rfl

@[simp] theorem storeReg_reply (r : BusReg) (w : Word) (s : State) : (storeReg r w s).reply = s.reply := by
  cases r <;> rfl

@[simp] theorem storeReg_upc (r : BusReg) (w : Word) (s : State) : (storeReg r w s).dp.upc = s.dp.upc := by
  cases r <;> rfl

@[simp] theorem storeReg_draws (r : BusReg) (w : Word) (s : State) : (storeReg r w s).dp.draws = s.dp.draws := by
  cases r <;> rfl

theorem storeReg_ctrl_of_ne (r : BusReg) (w : Word) (s : State) (h : r ≠ .ctrl) : (storeReg r w s).ctrl = s.ctrl := by
  cases r <;> first | rfl | exact absurd rfl h

/-- A stored word is read back, from a register other than `CTRL` that stores the whole word. -/
theorem readReg_storeReg_same (r : BusReg) (w : Word) (s : State)
    (h : r = .phase ∨ r = .phaseInc ∨ (∃ v, r = .value v) ∨ ∃ i q, r = .bq i q) : readReg r (storeReg r w s) = w := by
  rcases h with rfl | rfl | ⟨v, rfl⟩ | ⟨i, q, rfl⟩ <;> simp [readReg, storeReg]

/-- Storing in one register changes what no other one reads. -/
theorem readReg_storeReg_ne (r q : BusReg) (w : Word) (s : State) (h : q ≠ r) :
    readReg q (storeReg r w s) = readReg q s := by
  cases r with
  | value v =>
    cases q with
    | value u => exact Values.get_set_ne _ _ fun e => h (e ▸ rfl)
    | _ => rfl
  | bq i k =>
    cases q with
    | bq j l =>
      by_cases e : j = i
      · subst e
        simp only [readReg, storeReg, Biquads.get_set_same]
        exact Biquad.get_set_ne _ _ fun e' => h (e' ▸ rfl)
      · simp only [readReg, storeReg, Biquads.get_set_ne _ _ e]
    | _ => rfl
  | _ => cases q <;> first | rfl | exact absurd rfl h

/-! ### The host's side -/

@[simp] theorem idle_dp (s : State) : (idle s).dp = s.dp := rfl
@[simp] theorem idle_ctrl (s : State) : (idle s).ctrl = s.ctrl := rfl
@[simp] theorem idle_status (s : State) : (idle s).status = s.status := rfl
@[simp] theorem idle_pending (s : State) : (idle s).pending = s.pending := rfl
@[simp] theorem placeOperation_dp (w : Word) (s : State) : (placeOperation w s).dp = s.dp := rfl
@[simp] theorem placeOperation_status (w : Word) (s : State) : (placeOperation w s).status = s.status := rfl

end Sys2Proof.Machine
end

