-- ==== Sys2Proof/Laws/Operations.lean ====
section
/-! SUPPORT. What each datapath operation changes, once per operation; the sequencer unrolled; what `exec`, `busWrite` and
`step` can answer. -/

namespace Sys2Proof.Machine

variable {F : Type}

/-! ### Numerics -/

@[simp] theorem b32_fadd : b32.fadd = B32.fadd := rfl
@[simp] theorem b32_fsub : b32.fsub = B32.fsub := rfl
@[simp] theorem b32_fmul : b32.fmul = B32.fmul := rfl
@[simp] theorem b32_fhalf : b32.fhalf = B32.fhalf := rfl
@[simp] theorem b32_fsin : b32.fsin = B32.fsin := rfl
@[simp] theorem b32_fge : b32.fge = B32.fge := rfl
@[simp] theorem b32_fofnat : b32.fofnat = B32.fofnat := rfl
@[simp] theorem b32_cZero : b32.cZero = B32.posZero := rfl
@[simp] theorem b32_c2pi : b32.c2pi = B32.c2pi := rfl
@[simp] theorem b32_c045 : b32.c045 = B32.c045 := rfl
@[simp] theorem b32_c009 : b32.c009 = B32.c009 := rfl

/-! ### The unit operations -/

section Fields

variable (N : Numerics F) (c : Ctrl) (k : BitVec 8) (i : BqInst) (m : Datapath F)

/-! These are stated over any numerics record, and proved by rewriting and not by `rfl`: the kernel then never compares
two states by computing the arithmetic in them. -/

@[simp] theorem oscSin_draws : (oscSin N m).draws = m.draws := by rw [oscSin]
@[simp] theorem oscSin_phase : (oscSin N m).phase = m.phase := by rw [oscSin]
@[simp] theorem oscSin_phaseInc : (oscSin N m).phaseInc = m.phaseInc := by rw [oscSin]
@[simp] theorem oscSin_bq : (oscSin N m).bq = m.bq := by rw [oscSin]
@[simp] theorem oscSin_upc : (oscSin N m).upc = m.upc := by rw [oscSin]
@[simp] theorem oscSin_v : (oscSin N m).v = { m.v with pilot := N.fsin m.phase } := by rw [oscSin]
@[simp] theorem oscHarm_draws : (oscHarm N k m).draws = m.draws + 1 := by rw [oscHarm]
@[simp] theorem oscHarm_phase : (oscHarm N k m).phase = m.phase := by rw [oscHarm]
@[simp] theorem oscHarm_phaseInc : (oscHarm N k m).phaseInc = m.phaseInc := by rw [oscHarm]
@[simp] theorem oscHarm_bq : (oscHarm N k m).bq = m.bq := by rw [oscHarm]
@[simp] theorem oscHarm_upc : (oscHarm N k m).upc = m.upc := by rw [oscHarm]
@[simp] theorem oscHarm_v :
    (oscHarm N k m).v = { m.v with subcarrier := N.fsin (N.fmul m.draws (N.fofnat k) m.phase) } := by rw [oscHarm]
@[simp] theorem oscAdv_draws : (oscAdv N m).draws = m.draws + 2 := by rw [oscAdv]
@[simp] theorem oscAdv_phase : (oscAdv N m).phase = phaseAfter N m.draws m.phase m.phaseInc := by rw [oscAdv]
@[simp] theorem oscAdv_v : (oscAdv N m).v = m.v := by rw [oscAdv]
@[simp] theorem oscAdv_phaseInc : (oscAdv N m).phaseInc = m.phaseInc := by rw [oscAdv]
@[simp] theorem oscAdv_bq : (oscAdv N m).bq = m.bq := by rw [oscAdv]
@[simp] theorem oscAdv_upc : (oscAdv N m).upc = m.upc := by rw [oscAdv]
@[simp] theorem bqProc_draws : (bqProc N i m).draws = m.draws + 9 := by rw [bqProc]
@[simp] theorem bqProc_phase : (bqProc N i m).phase = m.phase := by rw [bqProc]
@[simp] theorem bqProc_phaseInc : (bqProc N i m).phaseInc = m.phaseInc := by rw [bqProc]
@[simp] theorem bqProc_upc : (bqProc N i m).upc = m.upc := by rw [bqProc]
@[simp] theorem encMono_draws : (encMono N m).draws = m.draws + 2 := by rw [encMono]
@[simp] theorem encMono_phase : (encMono N m).phase = m.phase := by rw [encMono]
@[simp] theorem encMono_phaseInc : (encMono N m).phaseInc = m.phaseInc := by rw [encMono]
@[simp] theorem encMono_bq : (encMono N m).bq = m.bq := by rw [encMono]
@[simp] theorem encMono_upc : (encMono N m).upc = m.upc := by rw [encMono]
@[simp] theorem encMono_v :
    (encMono N m).v = { m.v with mono := N.fhalf (m.draws + 1) (N.fadd m.draws m.v.lpL m.v.lpR) } := by rw [encMono]
@[simp] theorem encDiff_draws : (encDiff N m).draws = m.draws + 2 := by rw [encDiff]
@[simp] theorem encDiff_phase : (encDiff N m).phase = m.phase := by rw [encDiff]
@[simp] theorem encDiff_phaseInc : (encDiff N m).phaseInc = m.phaseInc := by rw [encDiff]
@[simp] theorem encDiff_bq : (encDiff N m).bq = m.bq := by rw [encDiff]
@[simp] theorem encDiff_upc : (encDiff N m).upc = m.upc := by rw [encDiff]
@[simp] theorem encDiff_v :
    (encDiff N m).v = { m.v with diff := N.fhalf (m.draws + 1) (N.fsub m.draws m.v.lpL m.v.lpR) } := by rw [encDiff]
@[simp] theorem encMix_phase : (encMix N c m).phase = m.phase := by rw [encMix]; split <;> rfl
@[simp] theorem encMix_phaseInc : (encMix N c m).phaseInc = m.phaseInc := by rw [encMix]; split <;> rfl
@[simp] theorem encMix_bq : (encMix N c m).bq = m.bq := by rw [encMix]; split <;> rfl
@[simp] theorem encMix_upc : (encMix N c m).upc = m.upc := by rw [encMix]; split <;> rfl
@[simp] theorem encExt_draws : (encExt N c m).draws = m.draws + 1 := by rw [encExt]
@[simp] theorem encExt_phase : (encExt N c m).phase = m.phase := by rw [encExt]
@[simp] theorem encExt_phaseInc : (encExt N c m).phaseInc = m.phaseInc := by rw [encExt]
@[simp] theorem encExt_bq : (encExt N c m).bq = m.bq := by rw [encExt]
@[simp] theorem encExt_upc : (encExt N c m).upc = m.upc := by rw [encExt]
@[simp] theorem encExt_v :
    (encExt N c m).v =
      { m.v with composite := N.fadd m.draws m.v.composite (if c.extEn then m.v.externalMpx else N.cZero) } := by
  rw [encExt]

/-- `ENC.MIX` in stereo and in mono mode. -/
theorem encMix_stereo (h : c.stereo = true) :
    encMix N c m = { m with v := { m.v with composite := stereoMix N m.draws m.v }, draws := m.draws + 6 } := by
  rw [encMix, if_pos h]

theorem encMix_mono (h : c.stereo = false) : encMix N c m = { m with v := { m.v with composite := m.v.mono } } := by
  rw [encMix, if_neg (by simp [h])]

/-- The registers of the processed instance after `BQ.PROC`. -/
@[simp] theorem bqProc_bq_same :
    (bqProc N i m).bq.get i =
      bqShift (m.bq.get i) (m.v.get (bqSource i)) (bqOutput N m.draws (m.bq.get i) (m.v.get (bqSource i))) := by
  simp [bqProc]

theorem bqProc_bq_ne {j : BqInst} (h : j ≠ i) : (bqProc N i m).bq.get j = m.bq.get j := by
  simp [bqProc, Biquads.get_set_ne _ _ h]

/-- The output register after `BQ.PROC`. -/
@[simp] theorem bqProc_v_dest :
    (bqProc N i m).v.get (bqDest i) = bqOutput N m.draws (m.bq.get i) (m.v.get (bqSource i)) := by
  simp [bqProc]

theorem bqProc_v_ne {r : VReg} (h : r ≠ bqDest i) : (bqProc N i m).v.get r = m.v.get r := by
  simp [bqProc, Values.get_set_ne _ _ h]

end Fields

/-- `SAMPLE` without its sequencer: the eleven operations one after the other, `UPC` back at 0. -/
theorem sample_unrolled (N : Numerics F) (c : Ctrl) (m : Datapath F) :
    sample N c m =
      { oscAdv N (encExt N c (encMix N c (oscHarm N 2 (oscSin N (encDiff N (encMono N
          (bqProc N .lowpassR (bqProc N .lowpassL (bqProc N .preemphR (bqProc N .preemphL m)))))))))) with upc := 0 } := by
  obtain ⟨stereo, h⟩ : ∃ b, c.stereo = b := ⟨_, rfl⟩
  cases stereo <;>
    simp [sample, sequencer, unitOpAt, nextUpc, bqProc, encMono, encDiff, oscSin, oscHarm, encMix, encExt, oscAdv, h]

/-! ### `request` and `exec` -/

theorem request_run {op : Datapath Word → Datapath Word} {s : State} (h : s.ctrl.run = true) :
    request op s = .next (operate op s) := if_pos h

theorem request_config {op : Datapath Word → Datapath Word} {s : State} (h : s.ctrl.run = false) :
    request op s = .next (refuse .errNrun s) := if_neg (by simp [h])

@[simp] theorem exec_sample (s : State) : exec .sample s = request (sample b32 s.ctrl) s := rfl
@[simp] theorem exec_oscSin (s : State) : exec .oscSin s = request (oscSin b32) s := rfl
@[simp] theorem exec_oscHarm (k : BitVec 8) (s : State) : exec (.oscHarm k) s = request (oscHarm b32 k) s := rfl
@[simp] theorem exec_oscAdv (s : State) : exec .oscAdv s = request (oscAdv b32) s := rfl
@[simp] theorem exec_encMono (s : State) : exec .encMono s = request (encMono b32) s := rfl
@[simp] theorem exec_encDiff (s : State) : exec .encDiff s = request (encDiff b32) s := rfl
@[simp] theorem exec_encMix (s : State) : exec .encMix s = request (encMix b32 s.ctrl) s := rfl
@[simp] theorem exec_encExt (s : State) : exec .encExt s = request (encExt b32 s.ctrl) s := rfl

@[simp] theorem instOfNat_instNumber (i : BqInst) : instOfNat (instNumber i) = some i := by cases i <;> rfl

/-- `BQ.PROC i` for an instance given by name. -/
theorem exec_bqProc (i : BqInst) (s : State) :
    exec (.bqProc (BitVec.ofNat 8 (instNumber i))) s = request (bqProc b32 i) s := by cases i <;> rfl

/-- `BQ.PROC` with an argument above 3. -/
theorem exec_bqProc_illegal {arg : BitVec 8} (h : 3 < arg.toNat) (s : State) :
    exec (.bqProc arg) s = .next (refuse .errOp s) := by
  obtain ⟨n, hn⟩ : ∃ n, arg.toNat = n + 4 := ⟨arg.toNat - 4, by omega⟩
  simp [exec, execBqProc, hn, instOfNat]

/-- An argument of `BQ.PROC` is the number of an instance, or above 3. -/
theorem bqProc_arg_cases (arg : BitVec 8) : (∃ i, arg = BitVec.ofNat 8 (instNumber i)) ∨ 3 < arg.toNat := by
  by_cases h : 3 < arg.toNat
  · exact .inr h
  · have key : ∀ a : BitVec 8, a.toNat ≤ 3 → a = 0 ∨ a = 1 ∨ a = 2 ∨ a = 3 := by decide
    rcases key arg (by omega) with rfl | rfl | rfl | rfl
    exacts [.inl ⟨.preemphL, rfl⟩, .inl ⟨.preemphR, rfl⟩, .inl ⟨.lowpassL, rfl⟩, .inl ⟨.lowpassR, rfl⟩]

/-- A well-formed operation is a datapath function behind the one refusal test. -/
theorem exec_of_wellFormed {i : Instr} (h : i.wellFormed = true) (s : State) :
    ∃ op : Datapath Word → Datapath Word, exec i s = request op s := by
  cases i with
  | bqProc arg =>
    rcases bqProc_arg_cases arg with ⟨j, rfl⟩ | hj
    · exact ⟨_, exec_bqProc j s⟩
    · exact absurd (of_decide_eq_true h) (by omega)
  | _ => exact ⟨_, rfl⟩

/-- Every operation is a datapath function behind the one refusal test, or is refused with `ERR_OP`. -/
theorem exec_is_request (i : Instr) (s : State) :
    (∃ op : Datapath Word → Datapath Word, exec i s = request op s) ∨ exec i s = .next (refuse .errOp s) := by
  by_cases h : i.wellFormed = true
  · exact .inl (exec_of_wellFormed h s)
  · cases i with
    | bqProc arg => exact .inr (exec_bqProc_illegal (by simpa [Instr.wellFormed] using h) s)
    | _ => exact absurd rfl h

/-- Everything an operation can answer: in the RUN phase the datapath changes and `BUSY` is 0, or a flag is raised. -/
theorem exec_cases (i : Instr) (s : State) :
    (s.ctrl.run = true ∧ ∃ op : Datapath Word → Datapath Word, exec i s = .next (operate op s)) ∨
      ∃ f, exec i s = .next (refuse f s) := by
  rcases exec_is_request i s with ⟨op, h⟩ | h
  · cases hr : s.ctrl.run
    · exact .inr ⟨_, h.trans (request_config hr)⟩
    · exact .inl ⟨rfl, op, h.trans (request_run hr)⟩
  · exact .inr ⟨_, h⟩

/-! ### The bus -/

@[simp] theorem busReg_ctrl : busReg 0#7 = .ctrl := by decide
@[simp] theorem busReg_status : busReg 1#7 = .status := by decide
@[simp] theorem busReg_cmd : busReg 2#7 = .cmd := by decide
@[simp] theorem busReg_phase : busReg 4#7 = .phase := by decide
@[simp] theorem busReg_phaseInc : busReg 5#7 = .phaseInc := by decide

/-- Every register but `CMD` and the reserved addresses is found at its address (R61). -/
@[simp] theorem busReg_busAddrOf (r : BusReg) : busReg (busAddrOf r) = r := by
  cases r with
  | value v => cases v <;> decide
  | bq i q => cases i <;> cases q <;> decide
  | _ => decide

/-- No register but the reserved ones has two addresses. -/
theorem busAddrOf_busReg {a : BusAddr} (h : busReg a ≠ .reserved) : busAddrOf (busReg a) = a := by revert a; decide

/-- The host's write to `CMD`. -/
theorem busWrite_cmd (w : Word) (s : State) : busWrite 0x02 w s = execute w s := rfl

theorem execute_ok {w : Word} {i : Instr} (h : decode w = .ok i) (s : State) : execute w s = exec i s := by
  simp [execute, h]

theorem execute_error {w : Word} {e : DecodeError} (h : decode w = .error e) (s : State) :
    execute w s = .next (refuse .errOp s) := by
  simp [execute, h]

/-- Only address 2 is `CMD`, so only a write there runs an operation (R65). -/
theorem busReg_eq_cmd (a : BusAddr) : busReg a = .cmd ↔ a = 0x02 := by revert a; decide

/-- Everything a bus write can do: an operation, a refusal, a store in a value register, or in the CONFIG phase a store
in a locked register. -/
theorem busWrite_cases (a : BusAddr) (w : Word) (s : State) :
    (a = 0x02 ∧ ∃ i, decode w = .ok i ∧ busWrite a w s = exec i s) ∨ (∃ f, busWrite a w s = .next (refuse f s)) ∨
      (∃ r, busWrite a w s = .next (storeReg (.value r) w s)) ∨
      (s.ctrl.run = false ∧ ∃ r, lockedReg r = true ∧ busWrite a w s = .next (storeReg r w s)) := by
  have locked : ∀ r, lockedReg r = true → lockedWrite r w s = .next (refuse .errLock s) ∨
      (s.ctrl.run = false ∧ lockedWrite r w s = .next (storeReg r w s)) := by
    intro r _
    cases hr : s.ctrl.run <;> simp [lockedWrite, hr]
  have lift : ∀ r, lockedReg r = true → busWrite a w s = lockedWrite r w s →
      (a = 0x02 ∧ ∃ i, decode w = .ok i ∧ busWrite a w s = exec i s) ∨ (∃ f, busWrite a w s = .next (refuse f s)) ∨
      (∃ r, busWrite a w s = .next (storeReg (.value r) w s)) ∨
      (s.ctrl.run = false ∧ ∃ r, lockedReg r = true ∧ busWrite a w s = .next (storeReg r w s)) := by
    intro r hl hb
    rcases locked r hl with h | ⟨hr, h⟩
    · exact .inr (.inl ⟨_, hb.trans h⟩)
    · exact .inr (.inr (.inr ⟨hr, r, hl, hb.trans h⟩))
  cases hq : busReg a with
  | cmd =>
    have ha := (busReg_eq_cmd a).1 hq
    subst ha
    cases hd : decode w with
    | ok i => exact .inl ⟨rfl, i, rfl, execute_ok hd s⟩
    | error e => exact .inr (.inl ⟨_, execute_error hd s⟩)
  | status => exact .inr (.inl ⟨.errAddr, by simp only [busWrite, hq]⟩)
  | reserved => exact .inr (.inl ⟨.errAddr, by simp only [busWrite, hq]⟩)
  | value r => exact .inr (.inr (.inl ⟨r, by simp only [busWrite, hq]⟩))
  | ctrl => exact lift .ctrl rfl (by simp only [busWrite, hq])
  | phase => exact lift .phase rfl (by simp only [busWrite, hq])
  | phaseInc => exact lift .phaseInc rfl (by simp only [busWrite, hq])
  | bq i r => exact lift (.bq i r) rfl (by simp only [busWrite, hq])

/-! ### `step` -/

theorem step_idle {s : State} (h : s.pending = []) : step s = .next (idle s) := by simp [step, h]

theorem step_action {s : State} {act : HostAction} {rest : List HostAction} (h : s.pending = act :: rest) :
    step s = perform act rest s := by simp [step, h]

theorem step_write {s : State} {a : BusAddr} {w : Word} {rest : List HostAction} (h : s.pending = .write a w :: rest) :
    step s = busWrite a w { s with pending := rest, reply := .ack } := step_action h

/-- Everything a step can do. The access taken off the list leaves the state `a`; then the core idles, reads, is reset,
runs an operation in the RUN phase, refuses, or stores. -/
theorem step_cases {s t : State} (h : step s = .next t) :
    (s.pending = [] ∧ t = idle s) ∨
    (∃ a rest, s.pending = .read a :: rest ∧ t = { s with pending := rest, reply := .data (busRead a s) }) ∨
    (∃ rest, s.pending = .reset :: rest ∧ t = resetCore { s with pending := rest }) ∨
    (∃ a w rest, s.pending = .write a w :: rest ∧
      ((a = 0x02 ∧ ∃ i, decode w = .ok i ∧ exec i { s with pending := rest, reply := .ack } = .next t) ∨
        (∃ f, t = refuse f { s with pending := rest, reply := .ack }) ∨
        (∃ r, t = storeReg (.value r) w { s with pending := rest, reply := .ack }) ∨
        (s.ctrl.run = false ∧ ∃ r, lockedReg r = true ∧ t = storeReg r w { s with pending := rest, reply := .ack }))) := by
  cases hp : s.pending with
  | nil =>
    rw [step_idle hp] at h
    injection h with h
    exact .inl ⟨rfl, h.symm⟩
  | cons act rest =>
    rw [step_action hp] at h
    cases act with
    | read a =>
      injection h with h
      exact .inr (.inl ⟨a, rest, rfl, h.symm⟩)
    | reset =>
      injection h with h
      exact .inr (.inr (.inl ⟨rest, rfl, h.symm⟩))
    | write a w =>
      refine .inr (.inr (.inr ⟨a, w, rest, rfl, ?_⟩))
      simp only [perform] at h
      rcases busWrite_cases a w { s with pending := rest, reply := .ack } with
        ⟨ha, i, hd, hb⟩ | ⟨f, hb⟩ | ⟨r, hb⟩ | ⟨hr, r, hl, hb⟩
      · exact .inl ⟨ha, i, hd, hb.symm.trans h⟩
      · rw [hb] at h
        injection h with h
        exact .inr (.inl ⟨f, h.symm⟩)
      · rw [hb] at h
        injection h with h
        exact .inr (.inr (.inl ⟨r, h.symm⟩))
      · rw [hb] at h
        injection h with h
        exact .inr (.inr (.inr ⟨hr, r, hl, h.symm⟩))

end Sys2Proof.Machine
end

