-- ==== Sys2Proof/Laws/Values.lean ====
section
/-! SUPPORT. The laws of values and of the operations on them: exact cases, zeros, NaNs and infinities, the sine. -/

namespace Sys2Proof.Machine.B32

/-! ### Values -/

theorem nan_or_inf {w : Word} (h : isFinite w = false) : isNaN w = true ∨ isInf w = true := by
  rw [isFinite_eq_false_iff] at h
  rw [isNaN_iff, isInf_iff]
  omega

theorem units_lt_of_finite {w : Word} (h : isFinite w = true) : units w ≤ (2 ^ 24 - 1) * 2 ^ 253 :=
  magUnits_lt_of_finite ((isFinite_iff w).1 h)

theorem value_pack (neg : Bool) {m : Nat} (h : m < 2 ^ 31) :
    value (pack neg m) = if neg = true then -(magUnits m : Int) else magUnits m := by
  unfold value units
  rw [isNeg_pack neg h, mag_pack neg h]

theorem natAbs_value (w : Word) : (value w).natAbs = units w := by
  unfold value
  split <;> simp

theorem value_eq_zero_iff (w : Word) : value w = 0 ↔ isZero w = true := by
  rw [← Int.natAbs_eq_zero, natAbs_value, isZero_iff, units, ← magUnits_zero]
  exact magUnits_strictMono.injective.eq_iff

theorem value_neg_iff (w : Word) : value w < 0 ↔ isNeg w = true ∧ isZero w = false := by
  have h : (0 : Int) ≤ units w := Int.natCast_nonneg _
  rw [← Bool.not_eq_true (isZero w), ← value_eq_zero_iff]
  unfold value
  split <;> rename_i hs <;> simp [hs]
  omega

theorem value_nonneg_of_pos {w : Word} (h : isNeg w = false) : value w = units w := by simp [value, h]

theorem value_of_neg {w : Word} (h : isNeg w = true) : value w = -(units w : Int) := by simp [value, h]

/-- Data with the same value are the same word, but for the sign of a zero. -/
theorem eq_of_value_eq {v w : Word} (h : value v = value w) (hz : isZero v = false) : v = w := by
  have hm : mag v = mag w := magUnits_strictMono.injective (by
    have := congrArg Int.natAbs h
    rwa [natAbs_value, natAbs_value] at this)
  have hw : isZero w = false := by
    rw [← Bool.not_eq_true, isZero_iff] at hz ⊢
    omega
  refine ext_mag ?_ hm
  have := value_neg_iff v
  have := value_neg_iff w
  rw [Bool.eq_iff_iff]
  simp_all

/-! ### The sign turned over -/

@[simp] theorem mag_fneg (w : Word) : mag (fneg w) = mag w := mag_pack _ (mag_lt w)

@[simp] theorem isNeg_fneg (w : Word) : isNeg (fneg w) = !isNeg w := isNeg_pack _ (mag_lt w)

@[simp] theorem isNaN_fneg (w : Word) : isNaN (fneg w) = isNaN w := by
  rw [Bool.eq_iff_iff, isNaN_iff, isNaN_iff, mag_fneg]

@[simp] theorem isInf_fneg (w : Word) : isInf (fneg w) = isInf w := by
  rw [Bool.eq_iff_iff, isInf_iff, isInf_iff, mag_fneg]

@[simp] theorem isFinite_fneg (w : Word) : isFinite (fneg w) = isFinite w := by
  rw [Bool.eq_iff_iff, isFinite_iff, isFinite_iff, mag_fneg]

@[simp] theorem isZero_fneg (w : Word) : isZero (fneg w) = isZero w := by
  rw [Bool.eq_iff_iff, isZero_iff, isZero_iff, mag_fneg]

@[simp] theorem value_fneg (w : Word) : value (fneg w) = -value w := by
  unfold value units
  rw [isNeg_fneg, mag_fneg]
  cases isNeg w <;> simp

/-! ### The operations on finite data -/

theorem fadd_finite (d : Nat) {a b : Word} (ha : isFinite a = true) (hb : isFinite b = true) :
    fadd d a b = addFinite a b := by
  simp [fadd, isNaN_of_finite ha, isNaN_of_finite hb, isInf_of_finite ha, isInf_of_finite hb]

theorem fmul_finite (d : Nat) {a b : Word} (ha : isFinite a = true) (hb : isFinite b = true) :
    fmul d a b = pack (isNeg a != isNeg b) (roundMag (units a * units b) 149) := by
  simp [fmul, isNaN_of_finite ha, isNaN_of_finite hb, isInf_of_finite ha, isInf_of_finite hb]

theorem fhalf_finite (d : Nat) {a : Word} (ha : isFinite a = true) :
    fhalf d a = pack (isNeg a) (roundMag (units a) 1) := by
  simp [fhalf, isNaN_of_finite ha, isInf_of_finite ha]

theorem addFinite_zero {a b : Word} (h : value a + value b = 0) :
    addFinite a b = if isNeg a && isNeg b then negZero else posZero := by simp [addFinite, h]

theorem addFinite_nonzero {a b : Word} (h : value a + value b ≠ 0) :
    addFinite a b = pack (decide (value a + value b < 0)) (roundMag (value a + value b).natAbs 0) := by
  simp [addFinite, h]

/-- A finite datum is the packed rounding of its own value. -/
theorem pack_roundMag_units {w : Word} (k : Nat) (h : isFinite w = true) :
    pack (isNeg w) (roundMag (units w * 2 ^ k) k) = w := by
  rw [units, roundMag_magUnits k ((isFinite_iff w).1 h), pack_mag]

/-- The difference is the sum with the other sign. -/
theorem fsub_eq (d : Nat) (a b : Word) : fsub d a b = fadd d a (fneg b) := by unfold fsub; rfl

/-- Adding a zero changes no other finite datum. -/
theorem fadd_zero_right (d : Nat) {a b : Word} (ha : isFinite a = true) (hz : isZero a = false)
    (hb : isZero b = true) : fadd d a b = a := by
  have hb0 := (value_eq_zero_iff b).2 hb
  have ha0 : value a ≠ 0 := fun h => by rw [(value_eq_zero_iff a).1 h] at hz; exact Bool.noConfusion hz
  rw [fadd_finite d ha (isFinite_of_zero hb), addFinite_nonzero (by rwa [hb0, add_zero]), hb0, add_zero, natAbs_value]
  have hs : decide (value a < 0) = isNeg a := by
    rw [Bool.eq_iff_iff, decide_eq_true_eq, value_neg_iff]
    simp [hz]
  rw [hs]
  simpa using pack_roundMag_units 0 ha

theorem fsub_zero_right (d : Nat) {a b : Word} (ha : isFinite a = true) (hz : isZero a = false)
    (hb : isZero b = true) : fsub d a b = a := by
  rw [fsub_eq]
  exact fadd_zero_right d ha hz (by rwa [isZero_fneg])

/-- The sum of two zeros is `−0.0` when both are negative, else `+0.0`. -/
theorem fadd_zeros (d : Nat) {a b : Word} (ha : isZero a = true) (hb : isZero b = true) :
    fadd d a b = if isNeg a && isNeg b then negZero else posZero := by
  rw [fadd_finite d (isFinite_of_zero ha) (isFinite_of_zero hb),
    addFinite_zero (by rw [(value_eq_zero_iff a).2 ha, (value_eq_zero_iff b).2 hb]; rfl)]

theorem fsub_zeros (d : Nat) {a b : Word} (ha : isZero a = true) (hb : isZero b = true) :
    fsub d a b = if isNeg a && !isNeg b then negZero else posZero := by
  rw [fsub_eq, fadd_zeros d ha (by rwa [isZero_fneg]), isNeg_fneg]

/-- The sum of two zeros is a zero. -/
theorem isZero_fadd (d : Nat) {a b : Word} (ha : isZero a = true) (hb : isZero b = true) : isZero (fadd d a b) = true := by
  rw [fadd_zeros d ha hb]
  split <;> decide

theorem isZero_fsub (d : Nat) {a b : Word} (ha : isZero a = true) (hb : isZero b = true) : isZero (fsub d a b) = true := by
  rw [fsub_eq]
  exact isZero_fadd d ha (by rwa [isZero_fneg])

@[simp] theorem roundMag_zero (k : Nat) : roundMag 0 k = 0 := by
  simpa using roundMag_magUnits (m := 0) k (by decide)

/-- A sum that is a number of the format is exact. -/
theorem fadd_exact (d : Nat) {a b w : Word} (ha : isFinite a = true) (hb : isFinite b = true) (hw : isFinite w = true)
    (h : value a + value b = value w) : isFinite (fadd d a b) = true ∧ value (fadd d a b) = value w := by
  rw [fadd_finite d ha hb]
  by_cases h0 : value w = 0
  · rw [addFinite_zero (h.trans h0), h0]
    split <;> decide
  · have hz : isZero w = false := by rwa [← Bool.not_eq_true, ← value_eq_zero_iff]
    have hs : decide (value w < 0) = isNeg w := by
      rw [Bool.eq_iff_iff, decide_eq_true_iff, value_neg_iff]
      exact and_iff_left hz
    have hp := pack_roundMag_units 0 hw
    rw [pow_zero, mul_one] at hp
    rw [addFinite_nonzero (by rwa [h]), h, hs, natAbs_value, hp]
    exact ⟨hw, rfl⟩

theorem fsub_exact (d : Nat) {a b w : Word} (ha : isFinite a = true) (hb : isFinite b = true) (hw : isFinite w = true)
    (h : value a - value b = value w) : isFinite (fsub d a b) = true ∧ value (fsub d a b) = value w := by
  rw [fsub_eq]
  exact fadd_exact d ha (by rwa [isFinite_fneg]) hw (by rwa [value_fneg, ← sub_eq_add_neg])

/-- A zero added on the left changes no value, and its sign shows only against `−0.0`. -/
theorem value_fadd_zero_left (d : Nat) {a b : Word} (ha : isZero a = true) (hb : isFinite b = true) :
    isFinite (fadd d a b) = true ∧ value (fadd d a b) = value b :=
  fadd_exact d (isFinite_of_zero ha) hb hb (by rw [(value_eq_zero_iff a).2 ha, zero_add])

theorem value_fadd_zero_right (d : Nat) {a b : Word} (ha : isFinite a = true) (hb : isZero b = true) :
    isFinite (fadd d a b) = true ∧ value (fadd d a b) = value a :=
  fadd_exact d ha (isFinite_of_zero hb) ha (by rw [(value_eq_zero_iff b).2 hb, add_zero])

theorem fadd_zero_left_eq (d : Nat) {a b : Word} (ha : isZero a = true) (hb : b ≠ negZero) :
    fadd d a b = fadd d posZero b := by
  cases hf : isFinite b
  · unfold fadd
    simp [isNaN_of_finite (isFinite_of_zero ha), isInf_of_finite (isFinite_of_zero ha),
      show isNaN posZero = false by decide, show isInf posZero = false by decide]
    rcases nan_or_inf hf with h | h <;> simp [h]
  · cases hz : isZero b
    · have hv : value b ≠ 0 := fun h => by rw [(value_eq_zero_iff b).1 h] at hz; exact Bool.noConfusion hz
      rw [fadd_finite d (isFinite_of_zero ha) hf, fadd_finite d (by decide) hf,
        addFinite_nonzero (by rwa [(value_eq_zero_iff a).2 ha, zero_add]),
        addFinite_nonzero (by rwa [(value_eq_zero_iff posZero).2 (by decide), zero_add]),
        (value_eq_zero_iff a).2 ha, (value_eq_zero_iff posZero).2 (by decide)]
    · have hs : isNeg b = false := by
        by_contra h
        rw [Bool.not_eq_false] at h
        exact hb (ext_mag (h.trans (by decide)) (((isZero_iff b).1 hz).trans (by decide)))
      rw [fadd_zeros d ha hz, fadd_zeros d (by decide) hz, hs, Bool.and_false, Bool.and_false]

/-- The product of a zero and a finite datum is a zero. -/
theorem isZero_fmul_left (d : Nat) {a b : Word} (ha : isZero a = true) (hb : isFinite b = true) :
    isZero (fmul d a b) = true := by
  have h0 : units a = 0 := by rw [units, (isZero_iff a).1 ha, magUnits_zero]
  rw [fmul_finite d (isFinite_of_zero ha) hb, h0, zero_mul, roundMag_zero, isZero_iff, mag_pack _ (by norm_num)]

/-- The sign of a product of finite data. -/
theorem isNeg_fmul (d : Nat) {a b : Word} (ha : isFinite a = true) (hb : isFinite b = true) :
    isNeg (fmul d a b) = (isNeg a != isNeg b) := by
  rw [fmul_finite d ha hb, isNeg_pack _ (roundMag_lt _ _)]

/-- A product too small to overflow is finite. -/
theorem isFinite_fmul (d : Nat) {a b : Word} (ha : isFinite a = true) (hb : isFinite b = true)
    (h : 2 * (units a * units b) < (2 ^ 25 - 1) * 2 ^ (253 + 149)) : isFinite (fmul d a b) = true := by
  rw [fmul_finite d ha hb, isFinite_iff, mag_pack _ (roundMag_lt _ _)]
  exact lt_of_le_of_ne (roundMag_le _ _) fun hr => absurd ((roundMag_eq_inf_iff _ _).1 hr) (not_le.2 h)

/-- Half a zero is the zero. -/
theorem fhalf_zero (d : Nat) {a : Word} (ha : isZero a = true) : fhalf d a = a := by
  have h0 : units a = 0 := by rw [units, (isZero_iff a).1 ha, magUnits_zero]
  rw [fhalf_finite d (isFinite_of_zero ha), h0, roundMag_zero]
  exact ext_mag (isNeg_pack _ (by norm_num)) ((mag_pack _ (by norm_num)).trans ((isZero_iff a).1 ha).symm)

/-! ### NaNs and infinities -/

theorem isNaN_fadd (d : Nat) {a b : Word} (h : isNaN a = true ∨ isNaN b = true) : isNaN (fadd d a b) = true := by
  rcases h with h | h <;> simp [fadd, h]

theorem isNaN_fsub (d : Nat) {a b : Word} (h : isNaN a = true ∨ isNaN b = true) : isNaN (fsub d a b) = true := by
  rw [fsub_eq]
  exact isNaN_fadd d (by rwa [isNaN_fneg])

theorem isNaN_fmul (d : Nat) {a b : Word} (h : isNaN a = true ∨ isNaN b = true) : isNaN (fmul d a b) = true := by
  rcases h with h | h <;> simp [fmul, h]

theorem isNaN_fhalf (d : Nat) {a : Word} (h : isNaN a = true) : isNaN (fhalf d a) = true := by simp [fhalf, h]

theorem isFinite_of_isNaN {w : Word} (h : isNaN w = true) : isFinite w = false := by
  rw [isNaN_iff] at h
  rw [isFinite_eq_false_iff]
  omega

theorem isFinite_of_isInf {w : Word} (h : isInf w = true) : isFinite w = false := by
  rw [isInf_iff] at h
  rw [isFinite_eq_false_iff, h]

theorem isInf_pack_inf (neg : Bool) : isInf (pack neg infMag) = true := by cases neg <;> decide

/-- No operation on an operand that is not finite gives a finite result. -/
theorem isFinite_fadd_left (d : Nat) {a b : Word} (h : isFinite a = false) : isFinite (fadd d a b) = false := by
  unfold fadd
  split
  · exact isFinite_of_isNaN (isNaN_drawNaN d)
  · next hn =>
    rcases nan_or_inf h with h' | h'
    · simp [h'] at hn
    · rw [if_pos h']
      split
      · exact isFinite_of_isNaN (isNaN_drawNaN d)
      · exact h

theorem isFinite_fadd_right (d : Nat) {a b : Word} (h : isFinite b = false) : isFinite (fadd d a b) = false := by
  unfold fadd
  split
  · exact isFinite_of_isNaN (isNaN_drawNaN d)
  · next hn =>
    rcases nan_or_inf h with h' | h'
    · simp [h'] at hn
    · split
      next ha =>
        split
        · exact isFinite_of_isNaN (isNaN_drawNaN d)
        · exact isFinite_of_isInf ha
      next ha => exact h

theorem isFinite_fsub_left (d : Nat) {a b : Word} (h : isFinite a = false) : isFinite (fsub d a b) = false := by
  rw [fsub_eq]
  exact isFinite_fadd_left d h

theorem isFinite_fsub_right (d : Nat) {a b : Word} (h : isFinite b = false) : isFinite (fsub d a b) = false := by
  rw [fsub_eq]
  exact isFinite_fadd_right d (by rwa [isFinite_fneg])

theorem isFinite_fmul_right (d : Nat) {a b : Word} (h : isFinite b = false) : isFinite (fmul d a b) = false := by
  unfold fmul
  split
  · exact isFinite_of_isNaN (isNaN_drawNaN d)
  · next hn =>
    rcases nan_or_inf h with h' | h'
    · simp [h'] at hn
    · rw [if_pos (by simp [h'])]
      split
      · exact isFinite_of_isNaN (isNaN_drawNaN d)
      · exact isFinite_of_isInf (isInf_pack_inf _)

/-! ### Draws -/

/-- A result that is no NaN does not depend on the index of the draw. -/
theorem fadd_draw {d : Nat} (d' : Nat) {a b : Word} (h : isNaN (fadd d a b) = false) : fadd d' a b = fadd d a b := by
  unfold fadd at *
  split
  next hn => simp [hn] at h
  · split
    next ha =>
      split
      next hb =>
        simp only [Bool.or_eq_true] at *
        simp_all
      · rfl
    · rfl

theorem fsub_draw {d : Nat} (d' : Nat) {a b : Word} (h : isNaN (fsub d a b) = false) : fsub d' a b = fsub d a b := by
  rw [fsub_eq] at h
  rw [fsub_eq, fsub_eq, fadd_draw d' h]

theorem fmul_draw {d : Nat} (d' : Nat) {a b : Word} (h : isNaN (fmul d a b) = false) : fmul d' a b = fmul d a b := by
  unfold fmul at *
  split
  next hn => simp [hn] at h
  · split
    next hi =>
      split
      next hz => simp_all
      · rfl
    · rfl

theorem not_nan_fadd {d : Nat} {a b : Word} (h : isNaN (fadd d a b) = false) : isNaN a = false ∧ isNaN b = false := by
  constructor <;> by_contra hc <;> simp only [Bool.not_eq_false] at hc
  · rw [isNaN_fadd d (.inl hc)] at h; exact Bool.noConfusion h
  · rw [isNaN_fadd d (.inr hc)] at h; exact Bool.noConfusion h

theorem not_nan_fsub {d : Nat} {a b : Word} (h : isNaN (fsub d a b) = false) : isNaN a = false ∧ isNaN b = false := by
  rw [fsub_eq] at h
  have := not_nan_fadd h
  rwa [isNaN_fneg] at this

/-! ### The sine -/

theorem isNaN_fsin {a : Word} (h : isFinite a = false) : isNaN (fsin a) = true := by simp [fsin, h]

theorem fsin_zero {a : Word} (h : isZero a = true) : fsin a = a := by simp [fsin, isFinite_of_zero h, h]

theorem isFinite_of_units_le {v w : Word} (hw : isFinite w = true) (h : units v ≤ units w) : isFinite v = true :=
  (isFinite_iff v).2 (lt_of_le_of_lt (magUnits_strictMono.le_iff_le.1 h) ((isFinite_iff w).1 hw))

theorem units_asUnit (r : Word) : units (asUnit r) ≤ units 0x3F800000 := by
  unfold asUnit
  split
  · assumption
  · decide

theorem units_fsin_le {a : Word} (h : isFinite a = true) : units (fsin a) ≤ units 0x3F800000 := by
  rw [fsin, if_pos h]
  split
  next hz =>
    rw [units, (isZero_iff a).1 hz, magUnits_zero]
    exact Nat.zero_le _
  next => exact units_asUnit _

theorem isFinite_fsin {a : Word} (h : isFinite a = true) : isFinite (fsin a) = true :=
  isFinite_of_units_le (by decide) (units_fsin_le h)

end Sys2Proof.Machine.B32
end

