-- ==== Sys2Proof/Laws/Biquad.lean ====
section
/-! SUPPORT. The output of a biquad instance in `N_b32`: whether it is a NaN does not depend on the draws, and nor does an
output that is none (R128, R174). -/

namespace Sys2Proof.Machine

open B32

/-- An output that is no NaN is the same with any draws. -/
theorem bqOutput_draw {d : Nat} (d' : Nat) {b : Biquad Word} {x : Word} (h : isNaN (bqOutput b32 d b x) = false) :
    bqOutput b32 d' b x = bqOutput b32 d b x := by
  simp only [bqOutput, b32_fadd, b32_fsub, b32_fmul] at *
  obtain ⟨h3, h2⟩ := not_nan_fsub h
  obtain ⟨h4, h1⟩ := not_nan_fsub h3
  obtain ⟨h5, h6⟩ := not_nan_fadd h4
  obtain ⟨h7, h8⟩ := not_nan_fadd h5
  rw [fmul_draw (d' + 4) h2, fmul_draw (d' + 3) h1, fmul_draw (d' + 2) h6, fmul_draw (d' + 1) h8, fmul_draw d' h7,
    fadd_draw (d' + 5) h5, fadd_draw (d' + 6) h4, fsub_draw (d' + 7) h3, fsub_draw (d' + 8) h]

/-- Whether the output is a NaN is the same with any draws. -/
theorem isNaN_bqOutput_draw (d d' : Nat) (b : Biquad Word) (x : Word) :
    isNaN (bqOutput b32 d b x) = isNaN (bqOutput b32 d' b x) := by
  cases h : isNaN (bqOutput b32 d b x)
  · rw [bqOutput_draw d' h, h]
  · cases h' : isNaN (bqOutput b32 d' b x)
    · rw [bqOutput_draw d h', h'] at h
      exact absurd h (by decide)
    · rfl

end Sys2Proof.Machine
end

