-- ==== Sys2Proof/Laws/Bus.lean ====
section
/-! SUPPORT. `CTRL` and `STATUS` as numbers, and the address lists of R50 and R68 as the map of R61 has them. -/

namespace Sys2Proof.Machine

theorem Ctrl.word_toNat (c : Ctrl) : c.word.toNat = c.extEn.toNat * 4 + c.stereo.toNat * 2 + c.run.toNat := by
  obtain ⟨run, stereo, extEn⟩ := c
  revert run stereo extEn
  decide

theorem Status.word_toNat (st : Status) :
    st.word.toNat = st.errAddr.toNat * 16 + st.errNrun.toNat * 8 + st.errLock.toNat * 4 + st.errOp.toNat * 2 +
      st.busy.toNat := by
  obtain ⟨busy, errOp, errLock, errNrun, errAddr⟩ := st
  revert busy errOp errLock errNrun errAddr
  decide

/-- The list of R50 is the locked registers of the map. -/
theorem lockedAddress_iff (a : BusAddr) : lockedAddress a.toNat ↔ lockedReg (busReg a) = true := by
  unfold lockedAddress
  revert a
  decide

/-- The list of R68 is the reserved addresses of the map. -/
theorem reservedAddress_iff (a : BusAddr) : reservedAddress a.toNat ↔ busReg a = .reserved := by
  unfold reservedAddress
  revert a
  decide

end Sys2Proof.Machine
end

