-- ==== Sys2Proof/Laws/Decode.lean ====
section
/-! SUPPORT. The fields of a word, and what a successful decoding says of it. -/

namespace Sys2Proof

/-- A word is its three fields one after the other (R92). -/
theorem word_eq_fields (w : Word) : zeroField w ++ opcField w ++ argField w = w := by
  apply BitVec.eq_of_getElem_eq
  intro n hn
  simp only [zeroField, opcField, argField, BitVec.getElem_append, BitVec.getElem_extractLsb']
  split
  · simp [BitVec.getLsbD_eq_getElem hn]
  · split <;> rw [← BitVec.getLsbD_eq_getElem hn] <;> congr 1 <;> omega

theorem decodeNoArg_ok {arg : BitVec 8} {i j : Instr} : decodeNoArg arg i = .ok j ↔ arg = 0 ∧ i = j := by
  unfold decodeNoArg
  split <;> simp_all

theorem decodeBqProc_ok {arg : BitVec 8} {j : Instr} : decodeBqProc arg = .ok j ↔ arg.toNat ≤ 3 ∧ .bqProc arg = j := by
  unfold decodeBqProc
  split <;> simp_all

/-- The operation that `OPC` and `ARG` name is encoded by them, and is well formed. -/
theorem decodeOpc_ok {opc arg : BitVec 8} {i : Instr} (h : decodeOpc opc arg = .ok i) :
    encode i = opw opc arg ∧ i.wellFormed = true := by
  unfold decodeOpc at h
  repeat' split at h
  all_goals first
    | (rw [decodeNoArg_ok] at h; obtain ⟨ha, hi⟩ := h; rw [← hi, ‹opc = _›, ha]; exact ⟨rfl, rfl⟩)
    | (rw [decodeBqProc_ok] at h; obtain ⟨ha, hi⟩ := h; rw [← hi, ‹opc = _›]; exact ⟨rfl, decide_eq_true ha⟩)
    | (injection h with h; rw [← h, ‹opc = _›]; exact ⟨rfl, rfl⟩)
    | cases h

/-- Decoding looks at the three fields, and the upper half is zero (R94). -/
theorem decode_ok {w : Word} {i : Instr} :
    decode w = .ok i ↔ zeroField w = 0 ∧ decodeOpc (opcField w) (argField w) = .ok i := by
  unfold decode
  split <;> simp_all

/-- A word whose upper half is zero is the format `OPW` of its other fields (R92). -/
theorem opw_fields {w : Word} (h : zeroField w = 0) : opw (opcField w) (argField w) = w := by
  have := word_eq_fields w
  rwa [h] at this

end Sys2Proof
end

