-- ==== Sys2Proof/Laws/PerInstr.lean ====
section
/-! SUPPORT. A statement made per operation: the row of the table that has its mnemonic selects its word (R95). -/

namespace Sys2Proof.Laws.EncodeSelected

/-- A row of the operation table with the mnemonic of `i` selects the word of `i`. -/
def Statement (i : Instr) : Prop :=
  i.wellFormed = true → ∃ row ∈ opcodeTable, row.mnemonic = i.mnemonic ∧ row.selects (encode i) = true

theorem sample : Statement .sample := fun _ => by decide

theorem oscSin : Statement .oscSin := fun _ => by decide

theorem oscHarm (k : BitVec 8) : Statement (.oscHarm k) :=
  fun _ => ⟨⟨"OSC.HARM", 0x00001100, 0xFFFFFF00⟩, by decide, rfl, by revert k; decide⟩

theorem oscAdv : Statement .oscAdv := fun _ => by decide

theorem bqProc (arg : BitVec 8) : Statement (.bqProc arg) := by
  have key : ∀ a : BitVec 8, a.toNat ≤ 3 → a = 0 ∨ a = 1 ∨ a = 2 ∨ a = 3 := by decide
  intro h
  rcases key arg (of_decide_eq_true h) with rfl | rfl | rfl | rfl <;> decide

theorem encMono : Statement .encMono := fun _ => by decide

theorem encDiff : Statement .encDiff := fun _ => by decide

theorem encMix : Statement .encMix := fun _ => by decide

theorem encExt : Statement .encExt := fun _ => by decide

end Sys2Proof.Laws.EncodeSelected
end

