-- ==== Sys2Proof/Laws/Rounding.lean ====
section
/-! SUPPORT. Rounding as R123 words it: the packed `roundMag` of a number is the binary32 datum `RoundsTo` describes. -/

namespace Sys2Proof.Machine

open B32

/-- A sign and a rounded magnitude make the correctly rounded datum. -/
theorem roundsTo_pack {neg : Bool} {n k : Nat} {z : Int} (hz : z = if neg = true then -(n : Int) else n) :
    RoundsTo z k (pack neg (roundMag n k)) := by
  have habs : |z| = n := by
    rw [hz]
    split <;> simp
  have hov : twiceOverflow k ≤ 2 * |z| ↔ roundMag n k = infMag := by
    rw [habs, roundMag_eq_inf_iff, twiceOverflow]
    rw [show (2 ^ 25 - 1 : Int) = ((2 ^ 25 - 1 : Nat) : Int) by norm_num]
    constructor <;> intro h <;> exact_mod_cast h
  refine ⟨fun hlt => ?_, fun hge => ?_⟩
  · have hr : roundMag n k < infMag :=
      lt_of_le_of_ne (roundMag_le n k) fun h => absurd (hov.2 h) (not_le.2 hlt)
    refine ⟨by rw [isFinite_iff, mag_pack _ (roundMag_lt n k)]; exact hr, fun u _ => ?_⟩
    have hpar : (pack neg (roundMag n k)).toNat % 2 = roundMag n k % 2 := by
      rw [pack_toNat neg (roundMag_lt n k)]
      split <;> omega
    have hu : B32.value u = if isNeg u = true then -(magUnits (mag u) : Int) else magUnits (mag u) := rfl
    have key : ∀ a b : Bool, |(if a = true then -(magUnits (roundMag n k) : Int) else magUnits (roundMag n k)) * 2 ^ k -
        (if a = true then -(n : Int) else n)| = |(magUnits (roundMag n k) : Int) * 2 ^ k - n| := by
      intro a _
      cases a
      · rfl
      · simp only [if_true]
        rw [← abs_neg]
        congr 1
        ring
    rw [hz, value_pack neg (roundMag_lt n k), key neg neg, hpar]
    obtain ⟨h1, h2⟩ := roundMag_nearest n k (mag u) hr
    by_cases hs : isNeg u = neg
    · have e : |B32.value u * 2 ^ k - (if neg = true then -(n : Int) else n)| = |(magUnits (mag u) : Int) * 2 ^ k - n| := by
        rw [hu, hs]
        cases neg
        · rfl
        · simp only [if_true]
          rw [← abs_neg]
          congr 1
          ring
      rw [e]
      refine ⟨h1, fun he hne => h2 he fun hm => hne ?_⟩
      rw [hu, hs, hm]
    · have hns : isNeg u = !neg := by cases neg <;> cases hv : isNeg u <;> simp_all
      have hp : (0 : Int) < 2 ^ k := by positivity
      have hU : (0 : Int) ≤ magUnits (mag u) * 2 ^ k := by positivity
      have e : |B32.value u * 2 ^ k - (if neg = true then -(n : Int) else n)| = (magUnits (mag u) : Int) * 2 ^ k + n := by
        rw [hu, hns]
        cases neg
        · simp only [Bool.not_false, if_true, Bool.false_eq_true, if_false]
          rw [abs_of_nonpos (by linarith)]
          ring
        · simp only [Bool.not_true, if_true, Bool.false_eq_true, if_false]
          rw [abs_of_nonneg (by linarith)]
          ring
      obtain ⟨h0, h0t⟩ := roundMag_nearest n k 0 hr
      have hn0 : |((magUnits 0 : Nat) : Int) * 2 ^ k - n| = n := by simp
      rw [hn0] at h0 h0t
      rw [e]
      refine ⟨by linarith, fun he hne => h0t (by linarith) fun hm => hne ?_⟩
      have hU0 : (magUnits (mag u) : Int) * 2 ^ k = 0 := by linarith
      have hz0 : (magUnits (mag u) : Int) = 0 := by
        rcases mul_eq_zero.1 hU0 with h | h
        · exact h
        · exact absurd h hp.ne'
      rw [hu, hz0, ← hm, magUnits_zero]
      simp
  · have hr := hov.1 hge
    have hpos : 0 < n := by
      by_contra h
      have : n = 0 := by omega
      subst this
      rw [roundMag_zero] at hr
      exact absurd hr (by decide)
    refine ⟨by rw [hr]; exact isInf_pack_inf neg, ?_⟩
    rw [isNeg_pack _ (roundMag_lt n k), hz]
    cases neg <;> simp [hpos]

end Sys2Proof.Machine
end

