-- ==== Sys2Proof/Tests/Slice0.lean ====
section
/-! SUPPORT. Tests against the vectors of spec/95_test_vectors.md and hand-encoded words, and one named witness for the
hypotheses of each statement. -/

open Sys2Proof
open Sys2Proof.Machine

namespace Sys2Proof.Tests

/-- What holds of the next state; false where there is none. -/
def next (r : Result) (p : State → Bool) : Bool :=
  match r with
  | .next t => p t
  | .fault _ => false
  | .refused _ => false

/-- The state after reset with `RUN = 1`, stereo, no external sample. -/
def running : State := { State.reset with ctrl := { run := true, stereo := true, extEn := false } }

/-- `running` with the host's actions still to perform. -/
def asked (acts : List HostAction) : State := { running with pending := acts }

/-- `running` with other value registers. -/
def withV (v : Values Word) : State := { running with dp := { running.dp with v := v } }

/-- `running` with another phase and increment. -/
def withPhase (p inc : Word) : State := { running with dp := { running.dp with phase := p, phaseInc := inc } }

/-- `running` with instance 0 and `leftRaw` as given. -/
def withBq (b : Biquad Word) (x : Word) : State :=
  { running with
    dp := { running.dp with bq := { running.dp.bq with preemphL := b }, v := { running.dp.v with leftRaw := x } } }

/-! ### Well-formedness and decoding -/

/-- R93, R105: `BQ.PROC` takes 0 to 3, `OSC.HARM` all 256 values. -/
theorem test_wellFormed_bqProc : (Instr.bqProc 3).wellFormed = true ∧ (Instr.bqProc 4).wellFormed = false := by decide

theorem test_wellFormed_oscHarm : (Instr.oscHarm 255).wellFormed = true := by decide

/-- Words written out from the columns `ZERO`, `OPC`, `ARG` of R92 and R95. -/
theorem test_decode_sample : decode 0b0000000000000000_00000001_00000000 = .ok .sample := by decide

theorem test_decode_oscSin : decode 0b0000000000000000_00010000_00000000 = .ok .oscSin := by decide

theorem test_decode_oscHarm : decode 0b0000000000000000_00010001_00000010 = .ok (.oscHarm 2) := by decide

theorem test_decode_oscAdv : decode 0b0000000000000000_00010010_00000000 = .ok .oscAdv := by decide

theorem test_decode_bqProc : decode 0b0000000000000000_00100000_00000010 = .ok (.bqProc 2) := by decide

theorem test_decode_encMono : decode 0b0000000000000000_00110000_00000000 = .ok .encMono := by decide

theorem test_decode_encDiff : decode 0b0000000000000000_00110001_00000000 = .ok .encDiff := by decide

theorem test_decode_encMix : decode 0b0000000000000000_00110010_00000000 = .ok .encMix := by decide

theorem test_decode_encExt : decode 0b0000000000000000_00110011_00000000 = .ok .encExt := by decide

/-- V-BUS-6. -/
theorem test_decode_refuses :
    [0x00010100, 0x00000101, 0x00001001, 0x00001201, 0x00002004, 0x000020FF, 0x00003400, 0x00000200, 0x0000FF00,
      0xFFFFFFFF].all (fun w : Word => (decode w).toOption.isNone) = true := by decide

theorem test_decodeTableWord :
    decodeTableWord 32 0x2001 = some (.bqProc 1) ∧ decodeTableWord 16 0x1105 = some (.oscHarm 5) := by decide

/-- The opcode table's rows do not overlap: the word of one row selects no other (R95). -/
theorem test_rows_exclusive :
    opcodeTable.Pairwise (fun a b => a.selects b.pattern = false ∧ b.selects a.pattern = false) := by decide

/-- The very next step runs the placed operation: the write is acknowledged and no flag is raised. -/
theorem test_withFetchWord :
    next (step (State.reset.withFetchWord 32 0x1200)) (fun t => t.reply == .ack && t.pending == [] && busRead 0x01 t == 0) =
      true := by decide

/-! ### Arithmetic -/

/-- V-NUM-1 to V-NUM-11. -/
theorem test_fadd :
    B32.fadd 0 0x3DCCCCCD 0x3E4CCCCD = 0x3E99999A ∧ B32.fadd 0 0x3F800000 0x33800000 = 0x3F800000 ∧
    B32.fadd 0 0x3F800001 0x33800000 = 0x3F800002 ∧ B32.fadd 0 0x7F7FFFFF 0x73000000 = 0x7F800000 ∧
    B32.fadd 0 0x7F7FFFFF 0x72800000 = 0x7F7FFFFF ∧ B32.fadd 0 0x80000000 0x80000000 = 0x80000000 ∧
    B32.fadd 0 0x80000000 0x00000000 = 0x00000000 ∧ B32.fsub 0 0x80000000 0x00000000 = 0x80000000 := by decide +kernel

/-- V-NUM-11 to V-NUM-17. -/
theorem test_fmul :
    B32.fmul 0 0xBF800000 0x00000000 = 0x80000000 ∧ B32.fmul 0 0x3EE66666 0x3EE66666 = 0x3E4F5C28 ∧
    B32.fmul 0 0x1A400000 0x1A000000 = 0x00000001 ∧ B32.fmul 0 0x1A000000 0x1A000000 = 0x00000000 ∧
    B32.fmul 0 0x71800000 0x71800000 = 0x7F800000 := by decide +kernel

/-- V-NUM-18 to V-NUM-23. -/
theorem test_fhalf :
    B32.fhalf 0 0x00000001 = 0x00000000 ∧ B32.fhalf 0 0x00000003 = 0x00000002 ∧ B32.fhalf 0 0x00800000 = 0x00400000 ∧
    B32.fhalf 0 0x00800003 = 0x00400002 ∧ B32.fhalf 0 0x01000001 = 0x00800001 := by decide +kernel

/-- V-NUM-24 to V-NUM-27. -/
theorem test_fge_fofnat :
    B32.fge 0x00000000 0x80000000 = true ∧ B32.fge 0x40C90FDB 0x40C90FDB = true ∧ B32.fge 0x7FC00000 0x40C90FDB = false ∧
    B32.fofnat 3 = 0x40400000 ∧ B32.fofnat 255 = 0x437F0000 := by decide +kernel

/-- The literal of program P1 and its pattern (R109 `WRF`). -/
theorem test_wrf : patternOf ⟨false, 62177354602297991, 100000000000000000⟩ = 0x3F1F2C8D := by decide +kernel

/-! ### Oscillator -/

/-- V-NUM-32 (property S2), through `OSC.SIN`. -/
theorem test_oscSin : next (exec .oscSin (withPhase 0x80000000 0)) (fun t => t.dp.v.pilot == 0x80000000) = true := by
  decide +kernel

theorem test_oscSin_config : next (exec .oscSin State.reset) (fun t => busRead 0x01 t == 8) = true := by decide +kernel

/-- V-OSC-4: the arguments of the sine, and its value at +0.0. -/
theorem test_oscHarm_argument :
    B32.fmul 0 (B32.fofnat 3) 0x3F1F2C8D = 0x3FEEC2D4 ∧ B32.fmul 0 (B32.fofnat 255) 0x3F1F2C8D = 0x431E8D60 ∧
    B32.fmul 0 (B32.fofnat 3) 0x40C6F7B1 = 0x419539C5 := by decide +kernel

theorem test_oscHarm_zero :
    next (exec (.oscHarm 0) (withPhase 0x3F1F2C8D 0)) (fun t => t.dp.v.subcarrier == 0 && t.dp.phase == 0x3F1F2C8D) =
      true := by decide +kernel

/-- V-OSC-3: `t = C_2PI` wraps to +0.0. -/
theorem test_oscAdv_wraps :
    next (exec .oscAdv (withPhase 0x40490FDB 0x40490FDB)) (fun t => t.dp.phase == 0x00000000) = true := by decide +kernel

/-- V-OSC-3: one subtraction only. -/
theorem test_oscAdv_once :
    next (exec .oscAdv (withPhase 0x40C00000 0x40E00000)) (fun t => t.dp.phase == 0x40D6F025) = true := by decide +kernel

/-! ### Biquad engine -/

/-- V-BQ-1, n = 1: the feedback is subtracted. -/
theorem test_bqProc_feedback :
    next
      (exec (.bqProc 0)
        (withBq ⟨0x3F000000, 0x3E800000, 0x3E000000, 0xBF000000, 0x3E800000, 0x3F800000, 0, 0x3F000000, 0⟩ 0))
      (fun t => t.dp.v.preL == 0x3F000000 &&
        t.dp.bq.preemphL ==
          ⟨0x3F000000, 0x3E800000, 0x3E000000, 0xBF000000, 0x3E800000, 0, 0x3F800000, 0x3F000000, 0x3F000000⟩) = true := by
  decide +kernel

/-- V-BQ-9: the identity coefficients turn −0.0 into +0.0. -/
theorem test_bqProc_signed_zero :
    next (exec (.bqProc 0) (withBq { Biquad.const (0 : Word) with b0 := 0x3F800000 } 0x80000000))
      (fun t => t.dp.v.preL == 0x00000000) = true := by decide +kernel

/-! ### Stereo encoder -/

/-- V-ENC-2. -/
theorem test_encMono :
    next (exec .encMono (withV { Values.const (0 : Word) with lpL := 0x3DCCCCCD, lpR := 0x3E4CCCCD }))
      (fun t => t.dp.v.mono == 0x3E19999A) = true := by decide +kernel

/-- V-ENC-2: left minus right. -/
theorem test_encDiff :
    next (exec .encDiff (withV { Values.const (0 : Word) with lpL := 0x3DCCCCCD, lpR := 0x3E4CCCCD }))
      (fun t => t.dp.v.diff == 0xBD4CCCCD) = true := by decide +kernel

/-- V-ENC-10. -/
theorem test_encMix_stereo :
    next (exec .encMix (withV { Values.const (0 : Word) with
        mono := 0x3F000000, pilot := 0x3F800000, diff := 0x3E800000, subcarrier := 0xBF800000 }))
      (fun t => t.dp.v.composite == 0x3E4F5C29) = true := by decide +kernel

/-- V-ENC-9: mono mode copies the pattern of `mono`, a NaN `pilot` notwithstanding. -/
theorem test_encMix_mono :
    next (exec .encMix { withV { Values.const (0 : Word) with
        mono := 0x3F000000, pilot := 0x7FC00000, diff := 0x3E800000 } with
          ctrl := { run := true, stereo := false, extEn := false } })
      (fun t => t.dp.v.composite == 0x3F000000) = true := by decide +kernel

/-- V-ENC-26. -/
theorem test_encExt_enabled :
    next (exec .encExt { withV { Values.const (0 : Word) with composite := 0x3E8E0A63, externalMpx := 0x3DCCCCCD } with
        ctrl := { run := true, stereo := true, extEn := true } })
      (fun t => t.dp.v.composite == 0x3EC13D96) = true := by decide +kernel

/-- V-ENC-22. -/
theorem test_encExt_disabled :
    next (exec .encExt (withV { Values.const (0 : Word) with composite := 0x80000000, externalMpx := 0x7FC00000 }))
      (fun t => t.dp.v.composite == 0x00000000) = true := by decide +kernel

/-! ### SAMPLE -/

/-- Program P1, sample 0: identity filters, 0.5 on both channels. -/
theorem test_sample :
    next (exec .sample { running with
        dp := { running.dp with
          v := { Values.const (0 : Word) with leftRaw := 0x3F000000, rightRaw := 0x3F000000 }
          phaseInc := 0x3F1F2C8D
          bq :=
            { preemphL := { Biquad.const (0 : Word) with b0 := 0x3F800000 }
              preemphR := { Biquad.const (0 : Word) with b0 := 0x3F800000 }
              lowpassL := { Biquad.const (0 : Word) with b0 := 0x3F800000 }
              lowpassR := { Biquad.const (0 : Word) with b0 := 0x3F800000 } } } })
      (fun t =>
        t.dp.v.composite == 0x3E666666 && t.dp.v.mono == 0x3F000000 && t.dp.phase == 0x3F1F2C8D && t.dp.upc == 0) =
      true := by decide +kernel

/-- V-BUS-4. -/
theorem test_sample_config : next (busWrite 0x02 0x00000100 State.reset) (fun t => busRead 0x01 t == 0x00000008) = true := by
  decide +kernel

/-! ### The bus -/

/-- V-BUS-2, V-BUS-3. -/
theorem test_ctrl :
    next (busWrite 0x00 0xFFFFFFFE State.reset) (fun t => busRead 0x00 t == 6 && busRead 0x01 t == 0) = true ∧
    next (busWrite 0x00 0x00000001 State.reset) (fun t => busRead 0x00 t == 1) = true := by decide +kernel

/-- V-BUS-8, V-BUS-9. -/
theorem test_refusals :
    next (busWrite 0x43 0x3F800000 running) (fun t => busRead 0x43 t == 0 && busRead 0x01 t == 4) = true ∧
    [0x01, 0x03, 0x25, 0x2C, 0x1C, 0x60].all
      (fun a : BusAddr => next (busWrite a 1 running) (fun t => busRead 0x01 t == 16)) = true := by decide +kernel

/-- V-BUS-10. -/
theorem test_value_register :
    next (busWrite 0x1B 0x7FC00001 running) (fun t => busRead 0x1B t == 0x7FC00001 && busRead 0x01 t == 0) = true := by
  decide +kernel

/-! ### Witnesses: the hypotheses of each statement are met, at a boundary where a clause has one -/

theorem legal_of {w : Word} (h : B32.isFinite w = true) (h0 : 0 ≤ B32.value w) (h1 : B32.value w < B32.value B32.c2pi) :
    PhaseLegal w := ⟨h, h0, h1⟩

theorem witness_StepRunsDecodedOperation :
    (asked [.write 0x02 0x00000100]).pending = .write 0x02 0x00000100 :: [] ∧ decode 0x00000100 = .ok .sample := by decide

theorem witness_DispatchTestsDecodeThenPhase :
    (asked [.write 0x02 0x00001201]).pending = .write 0x02 0x00001201 :: [] ∧ decode 0x00001201 = .error .argumentNotZero ∧
    decode 0x000011FF = .ok (.oscHarm 255) ∧ State.reset.ctrl.run = false ∧ running.ctrl.run = true :=
  ⟨rfl, rfl, rfl, rfl, rfl⟩

theorem witness_DecodeEncodeRoundTrip : (Instr.bqProc 3).wellFormed = true ∧ (Instr.oscHarm 255).wellFormed = true := by
  decide

theorem witness_EncodeDecodeRoundTrip : decode 0x00002003 = .ok (.bqProc 3) := rfl

theorem witness_DecodeSelectsTableRow :
    decode 0x000011FF = .ok (.oscHarm 255) ∧
    (⟨"OSC.HARM", 0x00001100, 0xFFFFFF00⟩ : OpRow) ∈ opcodeTable ∧
    (⟨"OSC.HARM", 0x00001100, 0xFFFFFF00⟩ : OpRow).selects 0x000011FF = true := ⟨rfl, by decide, by decide⟩

/-- One word at each boundary of each clause of R105, with its upper half, its `OPC` and its `ARG`. -/
def noOperationWords : List (Word × Nat × Nat × Nat) :=
  [(0x00010100, 1, 0x01, 0), (0xFFFF0100, 0xFFFF, 0x01, 0), (0x00000000, 0, 0x00, 0), (0x00000200, 0, 0x02, 0),
   (0x00000F00, 0, 0x0F, 0), (0x00001300, 0, 0x13, 0), (0x00001F00, 0, 0x1F, 0), (0x00002100, 0, 0x21, 0),
   (0x00002F00, 0, 0x2F, 0), (0x00003400, 0, 0x34, 0), (0x0000FFFF, 0, 0xFF, 0xFF), (0x00000101, 0, 0x01, 1),
   (0x000010FF, 0, 0x10, 0xFF), (0x00001201, 0, 0x12, 1), (0x000030FF, 0, 0x30, 0xFF), (0x00003101, 0, 0x31, 1),
   (0x00003201, 0, 0x32, 1), (0x00003301, 0, 0x33, 1), (0x00002004, 0, 0x20, 4), (0x000020FF, 0, 0x20, 0xFF)]

theorem witness_NotAnOperationIsRefused :
    (∀ x ∈ noOperationWords,
      x.1.toNat / 2 ^ 16 = x.2.1 ∧ x.1.toNat / 2 ^ 8 % 2 ^ 8 = x.2.2.1 ∧ x.1.toNat % 2 ^ 8 = x.2.2.2) ∧
    ∀ x ∈ noOperationWords.map (·.2),
      x.1 ≠ 0 ∨ x.2.1 = 0x00 ∨ (0x02 ≤ x.2.1 ∧ x.2.1 ≤ 0x0F) ∨ (0x13 ≤ x.2.1 ∧ x.2.1 ≤ 0x1F) ∨
        (0x21 ≤ x.2.1 ∧ x.2.1 ≤ 0x2F) ∨ 0x34 ≤ x.2.1 ∨
        (x.2.2 ≠ 0 ∧ x.2.1 ∈ [0x01, 0x10, 0x12, 0x30, 0x31, 0x32, 0x33]) ∨ (x.2.1 = 0x20 ∧ 3 < x.2.2) := by
  constructor <;> decide

/-- Of the operations as well: each runs in `running` and is refused in `State.reset`. -/
theorem witness_OperationsRefusedInConfig :
    (Instr.bqProc 3).wellFormed = true ∧ State.reset.ctrl.run = false ∧ running.ctrl.run = true := by decide

theorem witness_OscSinWritesPilot :
    running.ctrl.run = true ∧ running.dp.phase = 0x00000000 ∧ (withPhase 0x7F800000 0).ctrl.run = true ∧
    B32.isFinite (withPhase 0x7F800000 0).dp.phase = false ∧ State.reset.ctrl.run = false := by decide

theorem witness_OscHarmWritesSubcarrier :
    running.ctrl.run = true ∧ State.reset.ctrl.run = false ∧
    (B32.isFinite (withPhase 0x7F7FFFFF 0).dp.phase = true ∧ B32.isNeg (withPhase 0x7F7FFFFF 0).dp.phase = false) ∧
    B32.isFinite (withPhase 0x80000000 0).dp.phase = true ∧ B32.expField (withPhase 0x7EFFFFFF 0).dp.phase < 254 ∧
    B32.isFinite (withPhase 0xFFFFFFFF 0).dp.phase = false := by decide

theorem witness_OscAdvAdvancesPhase :
    (withPhase 0x40490FDB 0x40490FDB).ctrl.run = true ∧ State.reset.ctrl.run = false ∧
    B32.fadd 0 0x40490FDB 0x40490FDB = 0x40C90FDB ∧ B32.isNaN (B32.fadd 0 0x7F800001 0) = true ∧
    PhaseLegal (withPhase 0x40C90FDA 0).dp.phase ∧ (withPhase 0x40C90FDA 0).dp.phase ≠ 0x80000000 ∧
    (withPhase 0x40C90FDA 0).dp.phaseInc = 0x00000000 :=
  ⟨rfl, rfl, by decide +kernel, B32.isNaN_fadd 0 (.inl (by decide)),
    legal_of (by decide) (by decide) (by decide), by decide, rfl⟩

theorem witness_PhaseStepErrorBounded :
    PhaseLegal 0x40C90FDA ∧ PhaseLegal 0x00000000 ∧ PhaseLegal 0x3F800000 ∧
    B32.value 0x3F800000 + B32.value 0x3F800000 < 8 * 2 ^ 149 ∧
    B32.fge (B32.fadd 0 0x40C90FDA 0x40C90FDA) B32.c2pi = true :=
  ⟨legal_of (by decide) (by decide) (by decide),
    legal_of (by decide) (by decide) (by decide),
    legal_of (by decide) (by decide) (by decide), by decide, by decide +kernel⟩

theorem witness_RunStepsKeepPhaseInRange :
    let s : State := { withPhase 0x40C90FDA 0x40C90FDA with pending := [.write 0x02 0x00001200] }
    ∃ t, s.ctrl.run = true ∧ s.PhaseInRange ∧ step s = .next t :=
  ⟨_, rfl, ⟨legal_of (by decide) (by decide) (by decide), legal_of (by decide) (by decide) (by decide)⟩, rfl⟩

theorem witness_RealPhaseClosedForm :
    ({ Datapath.reset (0 : ℝ) with phaseInc := 1 } : Datapath ℝ).phase = 0 ∧ (0 : ℝ) ≤ 1 ∧ (1 : ℝ) < 2 * Real.pi :=
  ⟨rfl, zero_le_one, by linarith [Real.pi_gt_three]⟩

theorem witness_SineProperties : B32.isFinite 0x3F800000 = true ∧ B32.isFinite 0x7F800000 = false := by decide

/-- The hypothesis on the sine is met with the bound 2, whatever the sine is: both numbers are at most 1. -/
theorem witness_SinAccurate : SinAccurate 2 := by
  intro a ha _ _
  have hu := B32.units_fsin_le ha
  have h1 : B32.units 0x3F800000 = 2 ^ 149 := by decide
  rw [h1] at hu
  have hv : |(B32.value (B32.fsin a) : ℝ)| ≤ 2 ^ 149 := by
    have h2 : |B32.value (B32.fsin a)| ≤ 2 ^ 149 := by
      rw [Int.abs_eq_natAbs, B32.natAbs_value]
      exact_mod_cast hu
    exact_mod_cast h2
  have hr : |realOf (B32.fsin a)| ≤ 1 := by
    rw [realOf, abs_div, abs_of_pos (by positivity : (0 : ℝ) < 2 ^ 149)]
    exact div_le_one_of_le₀ hv (by positivity)
  have hs := Real.abs_sin_le_one (realOf a)
  rw [abs_le] at hr hs ⊢
  constructor <;> linarith [hr.1, hr.2, hs.1, hs.2]

theorem witness_PhaseLock :
    SinAccurate 2 ∧ (withPhase 0x40C90FDA 0).ctrl.run = true ∧ PhaseLegal (withPhase 0x40C90FDA 0).dp.phase :=
  ⟨witness_SinAccurate, rfl, legal_of (by decide) (by decide) (by decide)⟩

theorem witness_BqProcFollowsRecurrence :
    running.ctrl.run = true ∧ State.reset.ctrl.run = false ∧ 3 < (4 : BitVec 8).toNat ∧ 3 < (255 : BitVec 8).toNat := by
  decide

/-- Two states that differ in the instances and registers `BQ.PROC 0` does not touch. -/
theorem witness_InstancesAreIndependent :
    let s' : State := { running with dp := { running.dp with bq := { running.dp.bq with lowpassR := .const 0x3F800000 } } }
    running.ctrl.run = true ∧ s'.ctrl.run = true ∧ running.dp.bq.get .preemphL = s'.dp.bq.get .preemphL ∧
      running.dp.v.get (bqSource .preemphL) = s'.dp.v.get (bqSource .preemphL) := by decide

theorem witness_ChannelsCommute :
    ∃ a b c d, exec (.bqProc (BitVec.ofNat 8 (instNumber .preemphL))) running = .next a ∧
      exec (.bqProc (BitVec.ofNat 8 (instNumber .preemphR))) a = .next b ∧
      exec (.bqProc (BitVec.ofNat 8 (instNumber .preemphR))) running = .next c ∧
      exec (.bqProc (BitVec.ofNat 8 (instNumber .preemphL))) c = .next d ∧
      B32.isNaN (b.dp.v.get (bqDest .preemphL)) = false ∧ B32.isNaN (b.dp.v.get (bqDest .preemphR)) = false :=
  ⟨_, _, _, _, rfl, rfl, rfl, rfl, by decide +kernel, by decide +kernel⟩

theorem witness_NonFiniteHistoryPoisons :
    let s := withBq { Biquad.const (0 : Word) with y2 := 0x7F800001 } 0
    let s' := withBq { Biquad.const (0 : Word) with x1 := 0xFF800000 } 0
    s.ctrl.run = true ∧ B32.isNaN (s.dp.bq.get .preemphL).y2 = true ∧ s'.ctrl.run = true ∧
      ¬ FiniteHistory (s'.dp.bq.get .preemphL) := by
  refine ⟨rfl, by decide, rfl, fun h => ?_⟩
  exact absurd h.1 (by decide)

/-- The state in which the zero coefficients give `−0.0` (log entry 17): negative inputs, non-negative outputs. -/
def zeroCoefficients : State := withBq { Biquad.const (0 : Word) with x1 := 0xBF800000, x2 := 0xBF800000 } 0xBF800000

theorem witness_ZeroCoefficientsGiveZero :
    zeroCoefficients.ctrl.run = true ∧ SameCoefs (zeroCoefficients.dp.bq.get .preemphL) (.const 0x00000000) ∧
    B32.isFinite (zeroCoefficients.dp.v.get (bqSource .preemphL)) = true ∧
    FiniteHistory (zeroCoefficients.dp.bq.get .preemphL) :=
  ⟨rfl, ⟨rfl, rfl, rfl, rfl, rfl⟩, by decide, by decide, by decide, by decide, by decide⟩

theorem witness_ZeroCoefficientsGiveZero_real :
    let b : Biquad ℝ := { Biquad.const 0 with x1 := -1, y1 := 1 }
    b.b0 = 0 ∧ b.b1 = 0 ∧ b.b2 = 0 ∧ b.a1 = 0 ∧ b.a2 = 0 := ⟨rfl, rfl, rfl, rfl, rfl⟩

/-- R171 by R123, by hand: `p0`, `p1`, `p2` are `−0.0` and `q1`, `q2` are `+0.0`, so `y` is `−0.0` (log entry 17). -/
theorem test_bqProc_zeroCoefficients :
    next (exec (.bqProc 0) zeroCoefficients) (fun t => t.dp.v.preL == 0x80000000) = true := by decide +kernel

theorem witness_ZeroCoefficientsGivePlusZero :
    zeroCoefficients.ctrl.run = true ∧ SameCoefs (zeroCoefficients.dp.bq.get .preemphL) (.const 0x00000000) ∧
    B32.isFinite (zeroCoefficients.dp.v.get (bqSource .preemphL)) = true ∧
    FiniteHistory (zeroCoefficients.dp.bq.get .preemphL) := witness_ZeroCoefficientsGiveZero

theorem witness_IdentityCoefficientsDeliverInput :
    let b : Biquad Word := { Biquad.const 0 with b0 := 0x3F800000, x1 := 0xBF800000, x2 := 0xBF800000 }
    let plain := withBq { b with y2 := 0x7F7FFFFF } 0x00000001
    let negZero := withBq b 0x80000000
    (∀ s ∈ [plain, negZero], s.ctrl.run = true ∧
      SameCoefs (s.dp.bq.get .preemphL) { Biquad.const (0x00000000 : Word) with b0 := 0x3F800000 } ∧
      B32.isFinite (s.dp.v.get (bqSource .preemphL)) = true ∧ FiniteHistory (s.dp.bq.get .preemphL)) ∧
    B32.isZero plain.dp.v.leftRaw = false ∧ B32.isZero negZero.dp.v.leftRaw = true := by
  refine ⟨?_, by decide, by decide⟩
  intro s hs
  simp only [List.mem_cons, List.not_mem_nil, or_false] at hs
  rcases hs with rfl | rfl <;>
    exact ⟨rfl, ⟨rfl, rfl, rfl, rfl, rfl⟩, by decide, by decide, by decide, by decide, by decide⟩

theorem witness_EncMonoHalvesSum :
    let s := withV { Values.const (0 : Word) with lpL := 0x01000000 }
    let s' := withV { Values.const (0 : Word) with lpL := 0xFF7FFFFF, lpR := 0x7F7FFFFF }
    running.ctrl.run = true ∧ State.reset.ctrl.run = false ∧
    (2 ≤ B32.expField (B32.fadd 0 s.dp.v.lpL s.dp.v.lpR) ∧ B32.isFinite (B32.fadd 0 s.dp.v.lpL s.dp.v.lpR) = true) ∧
    (B32.isFinite s'.dp.v.lpR = true ∧ s'.dp.v.lpL = B32.fneg s'.dp.v.lpR) := by decide +kernel

theorem witness_EncDiffHalvesDifference :
    let s := withV { Values.const (0 : Word) with lpL := 0xFF7FFFFF, lpR := 0xFF7FFFFF }
    running.ctrl.run = true ∧ State.reset.ctrl.run = false ∧ B32.isFinite s.dp.v.lpL = true ∧ s.dp.v.lpL = s.dp.v.lpR := by
  decide

theorem witness_EncMixFollowsFormula :
    let mono : State := { running with ctrl := { run := true, stereo := false, extEn := false } }
    let nan := withV { Values.const (0 : Word) with subcarrier := 0x7F800001 }
    let zero := withV { Values.const (0 : Word) with diff := 0x80000000, subcarrier := 0x7F7FFFFF, mono := 0x3F800000 }
    let u := B32.fadd 4 (B32.fmul 0 zero.dp.v.mono 0x3EE66666) (B32.fmul 1 zero.dp.v.pilot 0x3DB851EC)
    running.ctrl.run = true ∧ running.ctrl.stereo = true ∧ mono.ctrl.run = true ∧ mono.ctrl.stereo = false ∧
    State.reset.ctrl.run = false ∧ B32.isNaN nan.dp.v.subcarrier = true ∧
    (B32.isZero zero.dp.v.diff = true ∧ B32.isFinite zero.dp.v.subcarrier = true ∧ B32.isNaN u = false ∧ u ≠ 0x80000000) := by
  decide +kernel

theorem witness_EncExtAddsExternal :
    let ext : State := { running with ctrl := { run := true, stereo := true, extEn := true } }
    let zero := withV { Values.const (0 : Word) with composite := 0x80000000 }
    running.ctrl.run = true ∧ running.ctrl.extEn = false ∧ ext.ctrl.run = true ∧ ext.ctrl.extEn = true ∧
    State.reset.ctrl.run = false ∧ (zero.ctrl.extEn = false ∧ B32.isNaN zero.dp.v.composite = false) ∧
    B32.isFinite zero.dp.v.composite = true := by decide

theorem witness_RealCompositeFormula :
    |(sample exact State.reset.ctrl (.reset 0)).v.mono| ≤ 1 ∧ |(sample exact State.reset.ctrl (.reset 0)).v.diff| ≤ 1 := by
  constructor <;>
    simp [sample_unrolled, encMix_stereo, State.reset, Datapath.reset, Biquads.const, Biquad.const, Values.const, bqProc,
      bqOutput, bqShift, Values.get, Values.set, Biquads.get, Biquads.set, bqSource, bqDest, exact]

/-- Both channels pass 0.5 through one tap. -/
theorem witness_EqualChannelsStayEqual :
    let b : Biquad Word := { Biquad.const (0 : Word) with b0 := 0x3F800000 }
    let s : State := { running with dp := { running.dp with
      v := { Values.const (0 : Word) with leftRaw := 0x3F000000, rightRaw := 0x3F000000 }, bq := ⟨b, b, b, b⟩ } }
    s.ctrl.run = true ∧ s.dp.v.leftRaw = s.dp.v.rightRaw ∧ s.dp.bq.preemphL = s.dp.bq.preemphR ∧
    s.dp.bq.lowpassL = s.dp.bq.lowpassR ∧ next (exec .sample s) (fun t => B32.isFinite t.dp.v.lpL) = true := by
  decide +kernel

theorem witness_SampleFollowsElevenSteps : running.ctrl.run = true ∧ State.reset.ctrl.run = false := by decide

theorem witness_SampleEqualsUnrolled : running.Idle ∧ running.ctrl.run = true := ⟨⟨rfl, rfl⟩, rfl⟩

theorem witness_SampleIgnoresStaleValues :
    let v : Values Word := { Values.const (0 : Word) with pilot := 0x7FC00000, composite := 0x3F800000, preL := 0xBF800000 }
    v.leftRaw = running.dp.v.leftRaw ∧ v.rightRaw = running.dp.v.rightRaw ∧ v.externalMpx = running.dp.v.externalMpx ∧
    running.ctrl.run = true := by decide

theorem witness_SampleUpdatesOncePerSample : running.ctrl.run = true := rfl

theorem witness_BusReadFollowsMap :
    running.Idle ∧ (asked [.read 0x01]).pending = .read 0x01 :: [] ∧ (0x02 : BusAddr).toNat = 0x02 ∧
    ∀ a ∈ [0x03, 0x06, 0x0F, 0x1C, 0x1F, 0x25, 0x27, 0x2C, 0x3F, 0x55, 0x5F, 0x60, (0x7F : BusAddr)],
      reservedAddress a.toNat := by
  refine ⟨⟨rfl, rfl⟩, rfl, rfl, ?_⟩
  unfold reservedAddress
  decide

theorem witness_ReadsAndIdlenessChangeNothing :
    (∃ t, (asked [.read 0x7F]).pending = .read 0x7F :: [] ∧ step (asked [.read 0x7F]) = .next t) ∧ running.pending = [] :=
  ⟨⟨_, rfl, rfl⟩, rfl⟩

theorem witness_LockedRegisterWrites :
    running.ctrl.run = true ∧ State.reset.ctrl.run = false ∧
    ∀ a ∈ [0x00, 0x04, 0x05, 0x20, 0x24, 0x28, 0x2B, 0x50, (0x5B : BusAddr)], lockedAddress a.toNat := by
  unfold lockedAddress
  decide

theorem witness_CtrlWriteSetsFields : State.reset.ctrl.run = false ∧ running.ctrl.run = true := by decide

theorem witness_ReservedAddressesRefuse :
    reservedAddress (0x03 : BusAddr).toNat ∧ reservedAddress (0x7F : BusAddr).toNat := by
  unfold reservedAddress
  decide

theorem witness_RunPhaseFreezesConfiguration :
    ∃ t, (asked [.write 0x00 0]).ctrl.run = true ∧ (asked [.write 0x00 0]).pending.head? ≠ some .reset ∧
      step (asked [.write 0x00 0]) = .next t := ⟨_, rfl, by decide, rfl⟩

theorem witness_FlagsStickUntilReset :
    (∃ t, step (asked [.write 0x02 0]) = .next t ∧ (asked [.write 0x02 0]).pending.head? ≠ some .reset) ∧
    ∃ t, step (asked [.reset]) = .next t ∧ (asked [.reset]).pending.head? = some .reset :=
  ⟨⟨_, rfl, by decide⟩, ⟨_, rfl, rfl⟩⟩

/-- The phase moves in the step of one running state, the history of instance 0 in that of another. -/
theorem witness_PhaseAndHistoryMoveOnlyByOperations :
    let s : State := { withPhase 0 0x3F800000 with pending := [.write 0x02 0x00001200] }
    let s' : State := { withBq (.const 0) 0x3F800000 with pending := [.write 0x02 0x00002000] }
    s.ctrl.run = true ∧ s.pending.head? ≠ some .reset ∧ next (step s) (fun t => t.dp.phase != s.dp.phase) = true ∧
    s'.ctrl.run = true ∧ s'.pending.head? ≠ some .reset ∧
    next (step s') (fun t => t.dp.bq.get .preemphL != s'.dp.bq.get .preemphL) = true := by decide +kernel

theorem witness_OperationsChangeOnlyWhatTheyWrite :
    (∃ t, (Instr.bqProc 3).wellFormed = true ∧ exec (.bqProc 3) running = .next t ∧ running.ctrl.run = true) ∧
    ∃ t, exec .sample State.reset = .next t ∧ State.reset.ctrl.run = false := ⟨⟨_, rfl, rfl, rfl⟩, ⟨_, rfl, rfl⟩⟩

theorem witness_StepsKeepIdle :
    ∃ t, (asked [.write 0x02 0x00000100]).Idle ∧ step (asked [.write 0x02 0x00000100]) = .next t :=
  ⟨_, ⟨rfl, rfl⟩, rfl⟩

theorem witness_ResetFromAnyState : (asked [.reset, .read 0x01]).pending = .reset :: [.read 0x01] := rfl

theorem witness_SumIsNearest :
    B32.isFinite 0x7F7FFFFF = true ∧ B32.isFinite 0xFF7FFFFF = true ∧ B32.value 0x7F7FFFFF + B32.value 0xFF7FFFFF = 0 ∧
    B32.isNeg 0x80000000 = true ∧ B32.value 0x80000000 - B32.value 0x00000000 = 0 := by decide

theorem witness_ProductIsNearest : B32.isFinite 0x1A400000 = true ∧ B32.isFinite 0x9A000000 = true := by decide

theorem witness_HalfIsExactAboveBottom :
    (2 ≤ B32.expField 0x01000000 ∧ B32.expField 0x7F7FFFFF ≤ 254) ∧ B32.isFinite 0x00000003 = true ∧
    B32.isZero 0x80000000 = true ∧ B32.isInf 0xFF800000 = true := by decide

theorem witness_NaNAndInfinityRules :
    B32.isNaN 0x7F800001 = true ∧ B32.isNaN 0xFFFFFFFF = true ∧
    (B32.isInf 0x7F800000 = true ∧ B32.isInf 0xFF800000 = true ∧ B32.isNeg 0x7F800000 ≠ B32.isNeg 0xFF800000) ∧
    (B32.isZero 0x80000000 = true ∧ B32.isFinite 0x7F7FFFFF = true) ∧
    (B32.isNaN 0x00000001 = false ∧ B32.isZero 0x00000001 = false) := by decide

theorem witness_RoundingErrorBounds :
    B32.isFinite 0x3F800000 = true ∧ B32.isFinite 0x00000001 = true ∧
    2 * |B32.value 0x3F800000 + B32.value 0x00000001| < twiceOverflow 0 ∧
    2 ^ 23 ≤ |B32.value 0x3F800000 + B32.value 0x00000001| ∧ |B32.value 0x00000001 + B32.value 0x00000001| < 2 ^ 23 := by
  decide

theorem witness_LowpassDesignUnitGain :
    (0 : ℝ) < 15000 ∧ (15000 : ℝ) < 192000 / 2 ∧ (0 : ℝ) < 5 ∧ (1 / 2 : ℝ) < 5 := by norm_num

theorem witness_LiteralPreemphasisFailsOnlyStability : (0 : ℝ) < 1 / 20000 ∧ (0 : ℝ) < 192000 := by norm_num

theorem witness_BridgeForwardsWholeWords :
    0x40000000 % 4 = 0 ∧ 0x40000001 % 4 ≠ 0 ∧ (2 : Nat) ≠ 4 ∧ ([0, 0] : List Byte).length ≠ 4 := by decide

/-- The clauses on a skipped boot step: all coefficients zero, in stereo with a phase and without, and in mono mode. -/
theorem witness_BootScriptConfigures :
    let mono : State := { running with ctrl := { run := true, stereo := false, extEn := true } }
    (running.ctrl.run = true ∧ running.dp.phase = 0x00000000 ∧ running.dp.phaseInc = 0x00000000) ∧
    (∀ s ∈ [running, mono, withPhase 0x40490FDB 0x3F1F2C8D, zeroCoefficients],
      s.ctrl.run = true ∧ B32.isFinite s.dp.v.leftRaw = true ∧ B32.isFinite s.dp.v.rightRaw = true ∧
        ∀ i, SameCoefs (s.dp.bq.get i) (.const 0x00000000) ∧ FiniteHistory (s.dp.bq.get i)) ∧
    PhaseLegal 0x00000000 ∧ PhaseLegal (withPhase 0x40490FDB 0x3F1F2C8D).dp.phase ∧
    mono.ctrl.stereo = false ∧ B32.isZero (B32.fsin running.dp.phase) = true := by
  refine ⟨⟨rfl, rfl, rfl⟩, ?_, legal_of (by decide) (by decide) (by decide), legal_of (by decide) (by decide) (by decide),
    rfl, by rw [B32.fsin_zero (by decide)]; decide⟩
  intro s hs
  simp only [List.mem_cons, List.not_mem_nil, or_false] at hs
  rcases hs with rfl | rfl | rfl | rfl <;> refine ⟨rfl, by decide, by decide, fun i => ?_⟩ <;> cases i <;>
    exact ⟨⟨rfl, rfl, rfl, rfl, rfl⟩, by decide, by decide, by decide, by decide⟩

end Sys2Proof.Tests
end

section
/-! The registers and the state (R20 to R56): one datapath function per operation with its frame, reading back what a
bus write stores, and what a step of a running core can change; then the statements of the family. -/

namespace Sys2Proof.Machine

variable {F : Type}

/-! ### The value registers, per unit operation -/

section ValueFrames

variable (N : Numerics F) (c : Ctrl) (k : BitVec 8) (m : Datapath F) {r : VReg}

theorem oscSin_v_ne (h : r ≠ .pilot) : (oscSin N m).v.get r = m.v.get r := by
  rw [oscSin_v]
  exact Values.get_set_ne m.v _ h

theorem oscHarm_v_ne (h : r ≠ .subcarrier) : (oscHarm N k m).v.get r = m.v.get r := by
  rw [oscHarm_v]
  exact Values.get_set_ne m.v _ h

theorem oscSin_pilot : (oscSin N m).v.get .pilot = N.fsin m.phase := by rw [oscSin_v, Values.get]

theorem oscHarm_subcarrier :
    (oscHarm N k m).v.get .subcarrier = N.fsin (N.fmul m.draws (N.fofnat k) m.phase) := by rw [oscHarm_v, Values.get]

theorem encMono_v_ne (h : r ≠ .mono) : (encMono N m).v.get r = m.v.get r := by
  rw [encMono_v]
  exact Values.get_set_ne m.v _ h

theorem encDiff_v_ne (h : r ≠ .diff) : (encDiff N m).v.get r = m.v.get r := by
  rw [encDiff_v]
  exact Values.get_set_ne m.v _ h

theorem encMix_v_ne (h : r ≠ .composite) : (encMix N c m).v.get r = m.v.get r := by
  cases hs : c.stereo
  · rw [encMix_mono N c m hs]
    exact Values.get_set_ne m.v _ h
  · rw [encMix_stereo N c m hs]
    exact Values.get_set_ne m.v _ h

theorem encExt_v_ne (h : r ≠ .composite) : (encExt N c m).v.get r = m.v.get r := by
  rw [encExt_v]
  exact Values.get_set_ne m.v _ h

end ValueFrames

/-! ### The four filters of `SAMPLE` -/

/-- The first four unit operations of `SAMPLE`: each biquad processes once (R207). -/
def filters (N : Numerics F) (m : Datapath F) : Datapath F :=
  bqProc N .lowpassR (bqProc N .lowpassL (bqProc N .preemphR (bqProc N .preemphL m)))

section Sample

variable (N : Numerics F) (c : Ctrl) (m : Datapath F)

/-- After the four filters each biquad has shifted once, its input and output being in its source and destination:
no later filter writes those (R172). -/
theorem filters_bq (i : BqInst) :
    (filters N m).bq.get i =
      bqShift (m.bq.get i) ((filters N m).v.get (bqSource i)) ((filters N m).v.get (bqDest i)) := by
  cases i <;> simp (disch := decide) only [filters, bqProc_bq_ne, bqProc_v_ne, bqProc_bq_same, bqProc_v_dest]

theorem filters_v_ne {r : VReg} (h : ∀ i, r ≠ bqDest i) : (filters N m).v.get r = m.v.get r := by
  simp only [filters, bqProc_v_ne N _ _ (h _)]

/-! ### `SAMPLE` as a whole -/

@[simp] theorem sample_upc : (sample N c m).upc = 0 := by rw [sample_unrolled]

@[simp] theorem sample_phaseInc : (sample N c m).phaseInc = m.phaseInc := by simp [sample_unrolled]

@[simp] theorem sample_bq : (sample N c m).bq = (filters N m).bq := by simp [sample_unrolled, filters]

/-- The phase advances once (R158). -/
theorem sample_phase : ∃ d, (sample N c m).phase = phaseAfter N d m.phase m.phaseInc := by
  rw [sample_unrolled]
  exact ⟨_, (oscAdv_phase N _).trans (congrArg₂ (phaseAfter N _) (by simp) (by simp))⟩

/-- The operations after the filters write only the last five value registers. -/
theorem sample_v_ne {r : VReg} (h : r ∉ [VReg.mono, .diff, .pilot, .subcarrier, .composite]) :
    (sample N c m).v.get r = (filters N m).v.get r := by
  simp only [List.mem_cons, List.not_mem_nil, or_false, not_or] at h
  obtain ⟨hmono, hdiff, hpilot, hsub, hcomp⟩ := h
  rw [sample_unrolled, oscAdv_v, encExt_v_ne N c _ hcomp, encMix_v_ne N c _ hcomp, oscHarm_v_ne N _ _ hsub,
    oscSin_v_ne N _ hpilot, encDiff_v_ne N _ hdiff, encMono_v_ne N _ hmono, filters]

/-- The pilot is the sine of the phase before the advance (R158). -/
theorem sample_pilot : (sample N c m).v.pilot = N.fsin m.phase := by
  change (sample N c m).v.get .pilot = _
  rw [sample_unrolled, oscAdv_v, encExt_v_ne N c _ (by decide), encMix_v_ne N c _ (by decide),
    oscHarm_v_ne N _ _ (by decide), oscSin_pilot]
  simp

/-- The subcarrier is the sine of twice the phase before the advance (R158). -/
theorem sample_subcarrier :
    ∃ d, (sample N c m).v.subcarrier = N.fsin (N.fmul d (N.fofnat 2) m.phase) := by
  change ∃ d, (sample N c m).v.get .subcarrier = _
  rw [sample_unrolled, oscAdv_v, encExt_v_ne N c _ (by decide), encMix_v_ne N c _ (by decide), oscHarm_subcarrier]
  exact ⟨_, congrArg (fun p => N.fsin (N.fmul _ (N.fofnat 2) p)) (by simp)⟩

/-- Each biquad shifts once, its input and output being in its source and destination afterwards too. -/
theorem sample_bq_get (i : BqInst) :
    (sample N c m).bq.get i =
      bqShift (m.bq.get i) ((sample N c m).v.get (bqSource i)) ((sample N c m).v.get (bqDest i)) := by
  rw [sample_bq, filters_bq, sample_v_ne N c m (r := bqSource i) (by cases i <;> decide),
    sample_v_ne N c m (r := bqDest i) (by cases i <;> decide)]

end Sample

/-! ### One datapath function per operation -/

/-- What an operation does to the datapath in the RUN phase (R95); `exec_next` ties it to `exec`. An ill-formed
`BQ.PROC` has no datapath function of its own and is given the identity. -/
def datapathOp (N : Numerics F) (c : Ctrl) : Instr → Datapath F → Datapath F
  | .sample => sample N c
  | .oscSin => oscSin N
  | .oscHarm k => oscHarm N k
  | .oscAdv => oscAdv N
  | .bqProc arg =>
    match instOfNat arg.toNat with
    | some i => bqProc N i
    | none => id
  | .encMono => encMono N
  | .encDiff => encDiff N
  | .encMix => encMix N c
  | .encExt => encExt N c

theorem instOfNat_arg (i : BqInst) : instOfNat (BitVec.ofNat 8 (instNumber i)).toNat = some i := by cases i <;> rfl

theorem datapathOp_bqProc (N : Numerics F) (c : Ctrl) (i : BqInst) :
    datapathOp N c (.bqProc (BitVec.ofNat 8 (instNumber i))) = bqProc N i := by
  simp only [datapathOp, instOfNat_arg]

/-- An argument of `BQ.PROC` names one of the four biquads, or the datapath is left as it is. -/
theorem datapathOp_bqProc_cases (N : Numerics F) (c : Ctrl) (arg : BitVec 8) :
    (∃ j, arg = BitVec.ofNat 8 (instNumber j) ∧ datapathOp N c (.bqProc arg) = bqProc N j) ∨
      datapathOp N c (.bqProc arg) = id := by
  rcases bqProc_arg_cases arg with ⟨j, rfl⟩ | h
  · exact .inl ⟨j, rfl, datapathOp_bqProc N c j⟩
  · obtain ⟨n, hn⟩ : ∃ n, arg.toNat = n + 4 := ⟨arg.toNat - 4, by omega⟩
    exact .inr (by simp only [datapathOp, hn, instOfNat])

theorem writtenValues_bqProc (i : BqInst) : writtenValues (.bqProc (BitVec.ofNat 8 (instNumber i))) = [bqDest i] := by
  cases i <;> rfl

theorem writtenInstances_bqProc (i : BqInst) : writtenInstances (.bqProc (BitVec.ofNat 8 (instNumber i))) = [i] := by
  cases i <;> rfl

/-- A well-formed operation is its datapath function behind the one refusal test (R94). -/
theorem exec_eq_request {i : Instr} (h : i.wellFormed = true) (s : State) :
    exec i s = request (datapathOp b32 s.ctrl i) s := by
  cases i with
  | bqProc arg =>
    rcases bqProc_arg_cases arg with ⟨j, rfl⟩ | hj
    · rw [exec_bqProc, datapathOp_bqProc]
    · exact absurd (of_decide_eq_true h) (by omega)
  | _ => rfl

/-- Everything an operation can answer: its datapath function in the RUN phase, one of two flags otherwise. -/
theorem exec_next {i : Instr} {s t : State} (h : exec i s = .next t) :
    (i.wellFormed = true ∧ s.ctrl.run = true ∧ t = operate (datapathOp b32 s.ctrl i) s) ∨
      (i.wellFormed = true ∧ s.ctrl.run = false ∧ t = refuse .errNrun s) ∨
      (i.wellFormed = false ∧ t = refuse .errOp s) := by
  cases hw : i.wellFormed
  · cases i with
    | bqProc arg =>
      rw [exec_bqProc_illegal (by simpa [Instr.wellFormed] using hw)] at h
      injection h with h
      exact .inr (.inr ⟨rfl, h.symm⟩)
    | _ => exact Bool.noConfusion hw
  · rw [exec_eq_request hw] at h
    cases hr : s.ctrl.run
    · rw [request_config hr] at h
      injection h with h
      exact .inr (.inl ⟨rfl, rfl, h.symm⟩)
    · rw [request_run hr] at h
      injection h with h
      exact .inl ⟨rfl, rfl, h.symm⟩

/-! ### The frame of every operation -/

section Frames

variable (N : Numerics F) (c : Ctrl) (i : Instr) (m : Datapath F)

/-- Only `SAMPLE` touches `UPC`, and it ends with 0 (R27). -/
theorem datapathOp_upc (h : m.upc = 0) : (datapathOp N c i m).upc = 0 := by
  cases i with
  | sample => exact sample_upc N c m
  | bqProc arg =>
    rcases datapathOp_bqProc_cases N c arg with ⟨j, -, hop⟩ | hop
    · rw [hop, bqProc_upc, h]
    · rw [hop, id, h]
  | _ => simp [datapathOp, h]

theorem datapathOp_phaseInc : (datapathOp N c i m).phaseInc = m.phaseInc := by
  cases i with
  | bqProc arg =>
    rcases datapathOp_bqProc_cases N c arg with ⟨j, -, hop⟩ | hop
    · rw [hop, bqProc_phaseInc]
    · rw [hop, id]
  | _ => simp [datapathOp]

theorem datapathOp_phase {i : Instr} (hadv : i ≠ .oscAdv) (hsample : i ≠ .sample) :
    (datapathOp N c i m).phase = m.phase := by
  cases i with
  | oscAdv => exact absurd rfl hadv
  | sample => exact absurd rfl hsample
  | bqProc arg =>
    rcases datapathOp_bqProc_cases N c arg with ⟨j, -, hop⟩ | hop
    · rw [hop, bqProc_phase]
    · rw [hop, id]
  | _ => simp [datapathOp]

/-- An operation writes no value register outside its row of the column "written by" (R21). -/
theorem datapathOp_v_ne {i : Instr} {r : VReg} (h : r ∉ writtenValues i) :
    (datapathOp N c i m).v.get r = m.v.get r := by
  cases i with
  | sample =>
    have hlate : r ∉ [VReg.mono, .diff, .pilot, .subcarrier, .composite] :=
      fun hr => h (List.mem_append_right [VReg.preL, .preR, .lpL, .lpR] hr)
    have hdest : ∀ j, r ≠ bqDest j := fun j hr => h (hr ▸ by cases j <;> decide)
    exact (sample_v_ne N c m hlate).trans (filters_v_ne N m hdest)
  | bqProc arg =>
    rcases datapathOp_bqProc_cases N c arg with ⟨j, rfl, hop⟩ | hop
    · rw [writtenValues_bqProc] at h
      rw [hop, bqProc_v_ne N j m (List.ne_of_not_mem_cons h)]
    · rw [hop, id]
  | oscSin => exact oscSin_v_ne N m (List.ne_of_not_mem_cons h)
  | oscHarm k => exact oscHarm_v_ne N k m (List.ne_of_not_mem_cons h)
  | oscAdv => exact congrArg (Values.get · r) (oscAdv_v N m)
  | encMono => exact encMono_v_ne N m (List.ne_of_not_mem_cons h)
  | encDiff => exact encDiff_v_ne N m (List.ne_of_not_mem_cons h)
  | encMix => exact encMix_v_ne N c m (List.ne_of_not_mem_cons h)
  | encExt => exact encExt_v_ne N c m (List.ne_of_not_mem_cons h)

/-- An operation either leaves a biquad as it is or processes it, which shifts its history (R42, R43). -/
theorem datapathOp_bq (j : BqInst) :
    (datapathOp N c i m).bq.get j = m.bq.get j ∨
      (j ∈ writtenInstances i ∧ ∃ x y, (datapathOp N c i m).bq.get j = bqShift (m.bq.get j) x y) := by
  cases i with
  | sample => exact .inr ⟨by cases j <;> decide, _, _, sample_bq_get N c m j⟩
  | bqProc arg =>
    rcases datapathOp_bqProc_cases N c arg with ⟨k, rfl, hop⟩ | hop
    · rw [hop, writtenInstances_bqProc]
      by_cases hj : j = k
      · subst hj
        exact .inr ⟨List.mem_singleton_self j, _, _, bqProc_bq_same N j m⟩
      · exact .inl (bqProc_bq_ne N k m hj)
    · exact .inl (by rw [hop, id])
  | _ => exact .inl (by simp [datapathOp])

theorem datapathOp_bq_ne {i : Instr} {j : BqInst} (h : j ∉ writtenInstances i) :
    (datapathOp N c i m).bq.get j = m.bq.get j :=
  (datapathOp_bq N c i m j).resolve_right fun hw => h hw.1

end Frames

theorem SameCoefs.refl (b : Biquad Word) : SameCoefs b b := ⟨rfl, rfl, rfl, rfl, rfl⟩

theorem bqShift_sameCoefs (b : Biquad Word) (x y : Word) : SameCoefs (bqShift b x y) b := ⟨rfl, rfl, rfl, rfl, rfl⟩

/-- No operation writes a coefficient (R41). -/
theorem datapathOp_sameCoefs (N : Numerics Word) (c : Ctrl) (i : Instr) (m : Datapath Word) (j : BqInst) :
    SameCoefs ((datapathOp N c i m).bq.get j) (m.bq.get j) := by
  rcases datapathOp_bq N c i m j with h | ⟨-, x, y, h⟩
  · rw [h]
    exact .refl _
  · rw [h]
    exact bqShift_sameCoefs _ x y

/-- The operations that process a biquad: `SAMPLE` and its own `BQ.PROC` (R42). -/
theorem mem_writtenInstances {i : Instr} {j : BqInst} (h : j ∈ writtenInstances i) :
    i = .bqProc (BitVec.ofNat 8 (instNumber j)) ∨ i = .sample := by
  cases i with
  | sample => exact .inr rfl
  | bqProc arg =>
    rcases bqProc_arg_cases arg with ⟨k, rfl⟩ | hk
    · rw [writtenInstances_bqProc, List.mem_singleton] at h
      exact .inl (h ▸ rfl)
    · revert h hk
      revert arg
      cases j <;> decide
  | _ => exact absurd h List.not_mem_nil

/-! ### Reading back a bus write -/

/-- Two addresses that name one register are one address, but for the reserved ones (R61). -/
theorem busReg_injective {a b : BusAddr} (ha : busReg a ≠ .reserved) (h : busReg b = busReg a) : b = a := by
  rw [← busAddrOf_busReg ha, ← h, busAddrOf_busReg (h ▸ ha)]

/-- A store behind one address changes what is read at no other. -/
theorem busRead_storeReg_ne {a b : BusAddr} (ha : busReg a ≠ .reserved) (hb : b ≠ a) (w : Word) (s : State) :
    busRead b (storeReg (busReg a) w s) = busRead b s :=
  readReg_storeReg_ne _ _ w s fun h => hb (busReg_injective ha h)

/-- A write to a value register stores in either phase (R67). -/
theorem busWrite_value {a : BusAddr} {r : VReg} (h : busReg a = .value r) (w : Word) (s : State) :
    busWrite a w s = .next (storeReg (.value r) w s) := by simp only [busWrite, h]

/-- A write to a locked register goes through the lock (R67). -/
theorem busWrite_locked {a : BusAddr} (h : lockedReg (busReg a) = true) (w : Word) (s : State) :
    busWrite a w s = lockedWrite (busReg a) w s := by
  cases hr : busReg a with
  | ctrl | phase | phaseInc | bq => simp only [busWrite, hr]
  | status | cmd | value | reserved => rw [hr] at h; exact Bool.noConfusion h

theorem lockedWrite_run {r : BusReg} {s : State} (h : s.ctrl.run = true) (w : Word) :
    lockedWrite r w s = .next (refuse .errLock s) := if_pos h

theorem lockedWrite_config {r : BusReg} {s : State} (h : s.ctrl.run = false) (w : Word) :
    lockedWrite r w s = .next (storeReg r w s) := if_neg (by simp [h])

/-- Every locked register but `CTRL` stores the whole word. -/
theorem readReg_storeReg_locked {r : BusReg} (hl : lockedReg r = true) (hc : r ≠ .ctrl) (w : Word) (s : State) :
    readReg r (storeReg r w s) = w := by
  refine readReg_storeReg_same r w s ?_
  cases r with
  | ctrl => exact absurd rfl hc
  | phase => exact .inl rfl
  | phaseInc => exact .inr (.inl rfl)
  | bq i q => exact .inr (.inr (.inr ⟨i, q, rfl⟩))
  | _ => exact Bool.noConfusion hl

/-! ### What every step keeps -/

theorem refuse_idle {s : State} (hs : s.Idle) (f : ErrFlag) : (refuse f s).Idle := by
  simpa [State.Idle] using hs

theorem storeReg_idle {s : State} (hs : s.Idle) (r : BusReg) (w : Word) : (storeReg r w s).Idle := by
  simpa [State.Idle] using hs

theorem exec_idle {i : Instr} {s t : State} (hs : s.Idle) (h : exec i s = .next t) : t.Idle := by
  rcases exec_next h with ⟨-, -, rfl⟩ | ⟨-, -, rfl⟩ | ⟨-, rfl⟩
  · exact ⟨rfl, datapathOp_upc b32 s.ctrl i s.dp hs.2⟩
  · exact refuse_idle hs _
  · exact refuse_idle hs _

theorem reset_idle : State.reset.Idle := ⟨rfl, rfl⟩

theorem reset_noFlag : State.reset.NoFlag := fun f => by cases f <;> rfl

/-- No operation clears a flag (R32). -/
theorem exec_flag {i : Instr} {s t : State} {f : ErrFlag} (hf : s.status.has f = true) (h : exec i s = .next t) :
    t.status.has f = true := by
  rcases exec_next h with ⟨-, -, rfl⟩ | ⟨-, -, rfl⟩ | ⟨-, rfl⟩
  · exact (Status.has_clear_busy _ _ f).trans hf
  · exact Status.has_raise_of_has _ _ hf
  · exact Status.has_raise_of_has _ _ hf

/-- What a step of a running core does to the phase and the biquads: nothing, unless the access it performs runs an
operation (R50, R75). -/
theorem step_dp_of_run {s t : State} (hr : s.ctrl.run = true) (hreset : s.pending.head? ≠ some .reset)
    (h : step s = .next t) :
    (t.dp.phase = s.dp.phase ∧ t.dp.bq = s.dp.bq) ∨
      ∃ w i, s.pending.head? = some (.write 0x02 w) ∧ decode w = .ok i ∧ t.dp = datapathOp b32 s.ctrl i s.dp := by
  rcases step_cases h with ⟨-, rfl⟩ | ⟨a, rest, -, rfl⟩ | ⟨rest, hp, -⟩ | ⟨a, w, rest, hp, hw⟩
  · exact .inl ⟨rfl, rfl⟩
  · exact .inl ⟨rfl, rfl⟩
  · exact absurd (by rw [hp, List.head?_cons]) hreset
  · rcases hw with ⟨rfl, i, hd, hi⟩ | ⟨f, rfl⟩ | ⟨r, rfl⟩ | ⟨hc, -⟩
    · rcases exec_next hi with ⟨-, -, rfl⟩ | ⟨-, -, rfl⟩ | ⟨-, rfl⟩
      · exact .inr ⟨w, i, by rw [hp, List.head?_cons], hd, rfl⟩
      · exact .inl ⟨rfl, rfl⟩
      · exact .inl ⟨rfl, rfl⟩
    · exact .inl ⟨rfl, rfl⟩
    · exact .inl ⟨rfl, rfl⟩
    · exact absurd (hr.symm.trans hc) (by decide)

/-! ### Zero coefficients -/

namespace B32

theorem isNeg_fadd_zeros (d : Nat) {a b : Word} (ha : isZero a = true) (hb : isZero b = true) :
    isNeg (fadd d a b) = (isNeg a && isNeg b) := by
  rw [fadd_zeros d ha hb]
  cases isNeg a && isNeg b <;> decide

theorem isNeg_fsub_zeros (d : Nat) {a b : Word} (ha : isZero a = true) (hb : isZero b = true) :
    isNeg (fsub d a b) = (isNeg a && !isNeg b) := by
  rw [fsub_eq, isNeg_fadd_zeros d ha (by rwa [isZero_fneg]), isNeg_fneg]

/-- The product of `+0.0` and a finite datum is a zero with the sign of the datum (R123). -/
theorem isNeg_fmul_posZero (d : Nat) {a : Word} (ha : isFinite a = true) : isNeg (fmul d posZero a) = isNeg a := by
  rw [isNeg_fmul d (by decide) ha, show isNeg posZero = false by decide, Bool.false_bne]

theorem isZero_fmul_posZero (d : Nat) {a : Word} (ha : isFinite a = true) : isZero (fmul d posZero a) = true :=
  isZero_fmul_left d (by decide) ha

/-- A zero is known by its sign. -/
theorem eq_of_isZero {w : Word} (h : isZero w = true) : w = if isNeg w then negZero else posZero := by
  rw [isZero_iff] at h
  cases hs : isNeg w
  · exact ext_mag hs h
  · exact ext_mag hs h

end B32

open B32 in
/-- With zero coefficients every product and every sum of R171 is a zero; the sign of the last is that of
`x + X1 + X2 - Y1 - Y2` read as zeros. -/
theorem bqOutput_zeroCoefs (d : Nat) {b : Biquad Word} {x : Word} (hb : SameCoefs b (.const posZero))
    (hx : isFinite x = true) (hh : FiniteHistory b) :
    isZero (bqOutput b32 d b x) = true ∧
      isNeg (bqOutput b32 d b x) = (isNeg x && isNeg b.x1 && isNeg b.x2 && !isNeg b.y1 && !isNeg b.y2) := by
  obtain ⟨h0, h1, h2, h3, h4⟩ := hb
  obtain ⟨hx1, hx2, hy1, hy2⟩ := hh
  simp only [Biquad.const] at h0 h1 h2 h3 h4
  simp only [bqOutput, b32_fadd, b32_fsub, b32_fmul, h0, h1, h2, h3, h4]
  have p0 := isZero_fmul_posZero d hx
  have p1 := isZero_fmul_posZero (d + 1) hx1
  have p2 := isZero_fmul_posZero (d + 2) hx2
  have q1 := isZero_fmul_posZero (d + 3) hy1
  have q2 := isZero_fmul_posZero (d + 4) hy2
  have s1 := isZero_fadd (d + 5) p0 p1
  have s2 := isZero_fadd (d + 6) s1 p2
  have s3 := isZero_fsub (d + 7) s2 q1
  refine ⟨isZero_fsub (d + 8) s3 q2, ?_⟩
  rw [isNeg_fsub_zeros _ s3 q2, isNeg_fsub_zeros _ s2 q1, isNeg_fadd_zeros _ s1 p2, isNeg_fadd_zeros _ p0 p1,
    isNeg_fmul_posZero _ hx, isNeg_fmul_posZero _ hx1, isNeg_fmul_posZero _ hx2, isNeg_fmul_posZero _ hy1,
    isNeg_fmul_posZero _ hy2]

/-- Over the real numbers the output is 0 (R175 (b)). -/
theorem bqOutput_exact_zeroCoefs (d : Nat) {b : Biquad ℝ} (x : ℝ) (h0 : b.b0 = 0) (h1 : b.b1 = 0) (h2 : b.b2 = 0)
    (h3 : b.a1 = 0) (h4 : b.a2 = 0) : bqOutput exact d b x = 0 := by
  simp [bqOutput, exact, h0, h1, h2, h3, h4]

/-! ### Reset -/

theorem phaseLegal_zero : PhaseLegal 0x00000000 := ⟨by decide, by decide, by decide⟩

/-- Every register reads 0 after reset but `CTRL`, whose `STEREO` is set (R52). -/
theorem readReg_reset (r : BusReg) : readReg r State.reset = if r = .ctrl then 2 else 0 := by
  cases r with
  | value v => cases v <;> rfl
  | bq i q => cases i <;> cases q <;> rfl
  | _ => rfl

theorem busReg_eq_ctrl (a : BusAddr) : busReg a = .ctrl ↔ a = 0x00 := by revert a; decide

/-! ## The statements of the family -/

/-- Settles O45: the sequencer ends at 0, and nothing else touches `BUSY` or `UPC` but to clear them. -/
theorem stepsKeepIdle : Obligations.StepsKeepIdle := by
  intro s t hs h
  rcases step_cases h with ⟨-, rfl⟩ | ⟨a, rest, -, rfl⟩ | ⟨rest, -, rfl⟩ | ⟨a, w, rest, -, hw⟩
  · exact hs
  · exact hs
  · exact reset_idle
  · have ha : State.Idle { s with pending := rest, reply := .ack } := hs
    rcases hw with ⟨-, i, -, hi⟩ | ⟨f, rfl⟩ | ⟨r, rfl⟩ | ⟨-, r, -, rfl⟩
    · exact exec_idle ha hi
    · exact refuse_idle ha f
    · exact storeReg_idle ha _ w
    · exact storeReg_idle ha r w

/-- Settles O21: the sign of the zero output, followed through the nine roundings of R171. -/
theorem zeroCoefficientsGiveZero : Obligations.ZeroCoefficientsGiveZero := by
  refine ⟨fun s i hr hb hx hh => ?_, fun d b x => bqOutput_exact_zeroCoefs d x⟩
  obtain ⟨hz, hs⟩ := bqOutput_zeroCoefs s.dp.draws hb hx hh
  refine ⟨_, (exec_bqProc i s).trans (request_run hr), ?_⟩
  rw [operate_dp, bqProc_v_dest, ← hs]
  exact ⟨hz, B32.eq_of_isZero hz⟩

/-- Settles O33, from the closed form of `SAMPLE` on the phase, the two sines and each biquad. -/
theorem sampleUpdatesOncePerSample : Obligations.SampleUpdatesOncePerSample := by
  intro s hr
  refine ⟨_, (exec_sample s).trans (request_run hr), ?_⟩
  rw [operate_dp]
  refine ⟨sample_phase b32 s.ctrl s.dp, sample_pilot b32 s.ctrl s.dp, sample_subcarrier b32 s.ctrl s.dp, fun i => ?_⟩
  rw [sample_bq_get]
  exact ⟨rfl, rfl, rfl, rfl⟩

/-- Settles O36: the address is that of the register, and no other address names it. -/
theorem valueRegistersStoreAnyPattern : Obligations.ValueRegistersStoreAnyPattern := by
  intro s r w
  have ha : busReg (busAddrOf (.value r)) = .value r := busReg_busAddrOf _
  refine ⟨_, busWrite_value ha w s, ?_, fun b hb => ?_, storeReg_upc _ w s⟩
  · change readReg (busReg (busAddrOf (.value r))) _ = w
    rw [ha]
    exact readReg_storeReg_same _ w s (.inr (.inr (.inl ⟨r, rfl⟩)))
  · have hne : b ≠ busAddrOf (.value r) := by
      rintro rfl
      exact hb (by cases r <;> rfl)
    have := busRead_storeReg_ne (by rw [ha]; exact BusReg.noConfusion) hne w s
    rwa [ha] at this

/-- Settles O37: the list of R50 is the locked registers of the map, and those go through the lock. -/
theorem lockedRegisterWrites : Obligations.LockedRegisterWrites := by
  intro s a w ha
  have hl := (lockedAddress_iff a).1 ha
  refine ⟨fun hr => (busWrite_locked hl w s).trans (lockedWrite_run hr w), fun hr h0 => ?_⟩
  have hc : busReg a ≠ .ctrl := fun h => h0 (by rw [(busReg_eq_ctrl a).1 h]; rfl)
  have hres : busReg a ≠ .reserved := fun h => by rw [h] at hl; exact Bool.noConfusion hl
  exact ⟨_, (busWrite_locked hl w s).trans (lockedWrite_config hr w), readReg_storeReg_locked hl hc w s,
    fun b hb => busRead_storeReg_ne hres hb w s⟩

/-- Settles O41: an operation, a refusal and a store each keep the set flags. -/
theorem flagsStickUntilReset : Obligations.FlagsStickUntilReset := by
  intro s t h
  rcases step_cases h with ⟨hp, rfl⟩ | ⟨a, rest, hp, rfl⟩ | ⟨rest, hp, rfl⟩ | ⟨a, w, rest, hp, hw⟩ <;>
    simp only [hp, List.head?_nil, List.head?_cons]
  · exact ⟨fun _ f hf => hf, nofun⟩
  · exact ⟨fun _ f hf => hf, nofun⟩
  · exact ⟨fun hne => absurd rfl hne, fun _ => reset_noFlag⟩
  · refine ⟨fun _ f hf => ?_, nofun⟩
    rcases hw with ⟨-, i, -, hi⟩ | ⟨g, rfl⟩ | ⟨r, rfl⟩ | ⟨-, r, -, rfl⟩
    · exact exec_flag (s := { s with pending := rest, reply := .ack }) hf hi
    · exact Status.has_raise_of_has _ _ hf
    · rwa [storeReg_status]
    · rwa [storeReg_status]

/-- Settles O42: in the RUN phase the phase and the biquads are stored by no bus write, so an operation moved them. -/
theorem phaseAndHistoryMoveOnlyByOperations : Obligations.PhaseAndHistoryMoveOnlyByOperations := by
  intro s t hr hreset h
  rcases step_dp_of_run hr hreset h with ⟨hphase, hbq⟩ | ⟨w, i, hp, hd, hdp⟩
  · exact ⟨fun hne => absurd hphase hne, fun j hne => absurd (by rw [hbq]) hne⟩
  · rw [hdp]
    refine ⟨fun hne => ⟨w, hp, ?_⟩, fun j hne => ⟨w, hp, ?_⟩⟩
    · by_contra hi
      rw [not_or, hd] at hi
      exact hne (datapathOp_phase _ _ _ (fun e => hi.1 (e ▸ rfl)) fun e => hi.2 (e ▸ rfl))
    · have hj : j ∈ writtenInstances i := by
        by_contra hj
        exact hne (datapathOp_bq_ne _ _ _ hj)
      rw [hd]
      exact (mem_writtenInstances hj).imp (congrArg _) (congrArg _)

/-- Settles O43: the frame of the operation's datapath function in the RUN phase, one raised flag in CONFIG. -/
theorem operationsChangeOnlyWhatTheyWrite : Obligations.OperationsChangeOnlyWhatTheyWrite := by
  intro i s t hw h
  rcases exec_next h with ⟨-, hr, rfl⟩ | ⟨-, hr, rfl⟩ | ⟨hill, -⟩
  · exact ⟨rfl, rfl, rfl, datapathOp_phaseInc _ _ _ _, datapathOp_sameCoefs _ _ _ _,
      fun _ => datapathOp_v_ne _ _ _, fun _ => datapathOp_bq_ne _ _ _, datapathOp_phase _ _ _,
      fun _ => Status.has_clear_busy _ _, fun hc => absurd (hr.symm.trans hc) (by decide)⟩
  · exact ⟨rfl, rfl, rfl, rfl, fun _ => .refl _, fun _ _ => rfl, fun _ _ => rfl, fun _ _ => rfl,
      fun hc => absurd (hc.symm.trans hr) (by decide), fun _ => ⟨rfl, rfl⟩⟩
  · exact absurd (hw.symm.trans hill) (by decide)

/-- Settles O38: `CTRL` is locked, and in the CONFIG phase `RUN` was 0. -/
theorem ctrlWriteSetsFields : Obligations.CtrlWriteSetsFields := by
  intro s w
  have hb : busWrite 0x00 w s = lockedWrite .ctrl w s := busWrite_locked rfl w s
  refine ⟨fun hr => ?_, fun hr => hb.trans (lockedWrite_run hr w)⟩
  rw [hb, lockedWrite_config hr, storeReg, Ctrl.written, hr, Bool.false_or]

/-- Settles O46. `+0.0` is a legal phase and a legal increment. -/
theorem resetMeetsInvariants : Obligations.ResetMeetsInvariants :=
  ⟨reset_idle, reset_noFlag, phaseLegal_zero, phaseLegal_zero⟩

/-- Settles O47: only address 0 names `CTRL`, and every other register is zero. -/
theorem resetValues : Obligations.ResetValues := by
  refine ⟨fun a => ?_, rfl, rfl, rfl, rfl⟩
  simp only [busRead, readReg_reset, busReg_eq_ctrl]

end Sys2Proof.Machine
end

section
/-! The bus and the platform's bridge (R63 to R68): what a read returns and leaves, which writes are refused, and how a
platform's access becomes one of the host's; then the statements of the family. -/

namespace Sys2Proof.Machine

/-! ### Reading -/

/-- A read at the address of a register returns its contents (R66). -/
theorem busRead_busAddrOf (r : BusReg) (s : State) : busRead (busAddrOf r) s = readReg r s := by
  rw [busRead, busReg_busAddrOf]

/-- `CMD` and the reserved addresses read 0 (R66, R68). -/
theorem busRead_eq_zero {a : BusAddr} (h : a.toNat = 0x02 ∨ reservedAddress a.toNat) (s : State) :
    busRead a s = 0 := by
  rcases h with hcmd | hres
  · rw [show a = 0x02 from BitVec.eq_of_toNat_eq hcmd]
    exact busRead_busAddrOf .cmd s
  · rw [busRead, (reservedAddress_iff a).1 hres]
    rfl

/-- A read sees the registers only: not the host's list, and not the reply. -/
theorem busRead_congr {s t : State} (hdp : t.dp = s.dp) (hctrl : t.ctrl = s.ctrl) (hstatus : t.status = s.status)
    (a : BusAddr) : busRead a t = busRead a s := by
  unfold busRead
  cases busReg a <;> simp only [readReg, hdp, hctrl, hstatus]

/-- `BUSY` is bit 0 of `STATUS` (R32). -/
theorem Status.getLsbD_zero_word (st : Status) : st.word.getLsbD 0 = st.busy := by
  obtain ⟨busy, errOp, errLock, errNrun, errAddr⟩ := st
  revert busy errOp errLock errNrun errAddr
  decide

/-- Bits 31:3 of `CTRL` read 0 (R68). -/
theorem Ctrl.word_toNat_lt (c : Ctrl) : c.word.toNat < 8 := by
  have hext := c.extEn.toNat_lt
  have hstereo := c.stereo.toNat_lt
  have hrun := c.run.toNat_lt
  rw [Ctrl.word_toNat]
  omega

theorem step_read {s : State} {a : BusAddr} {rest : List HostAction} (h : s.pending = .read a :: rest) :
    step s = .next { s with pending := rest, reply := .data (busRead a s) } := step_action h

/-! ### Refused writes and ignored bits -/

/-- A write to a reserved address is refused in either phase (R68). -/
theorem busWrite_reserved {a : BusAddr} (h : busReg a = .reserved) (w : Word) (s : State) :
    busWrite a w s = .next (refuse .errAddr s) := by simp only [busWrite, h]

/-- `CTRL` stores bits 2:0 of what is written (R68). -/
theorem Ctrl.written_low (w : Word) (c : Ctrl) : c.written (w &&& 0x00000007) = c.written w := by
  simp [Ctrl.written]

/-! ### The bridge -/

/-- The four bytes of a word make the word again (R63). -/
theorem bytesWord_wordBytes (w : Word) : bytesWord (wordBytes w) = some w := by
  simp only [wordBytes, bytesWord]
  rw [BitVec.extractLsb'_append_extractLsb'_eq_extractLsb' (by rfl),
    BitVec.extractLsb'_append_extractLsb'_eq_extractLsb' (by rfl),
    BitVec.extractLsb'_append_extractLsb'_eq_extractLsb' (by rfl), BitVec.extractLsb'_eq_self]

/-- With an aligned base, word address `a` stands at byte address `base + 4a` (R63). -/
theorem bridgeAddr_word {base : Nat} (hbase : base % 4 = 0) (a : BusAddr) :
    bridgeAddr base (base + 4 * a.toNat) 4 = some a := by
  have ha := a.isLt
  rw [bridgeAddr, if_pos (by omega), show (base + 4 * a.toNat - base) / 4 = a.toNat by omega, BitVec.ofNat_toNat,
    BitVec.setWidth_eq]

/-- A misaligned access, or one not of four bytes, stands for no word address (R64). -/
theorem bridgeAddr_eq_none {byteAddr size : Nat} (h : byteAddr % 4 ≠ 0 ∨ size ≠ 4) (base : Nat) :
    bridgeAddr base byteAddr size = none := if_neg (by omega)

/-! ## The statements of the family -/

/-- Settles O34: each address is that of the register the map names there, `CTRL` and `STATUS` as numbers. -/
theorem busReadFollowsMap : Obligations.BusReadFollowsMap := by
  intro s
  refine ⟨Ctrl.word_toNat s.ctrl, Status.word_toNat s.status, rfl, rfl, fun r => busRead_busAddrOf (.value r) s,
    fun i r => busRead_busAddrOf (.bq i r) s, fun a ha => busRead_eq_zero ha s, fun hidle => ?_,
    fun a rest h => step_read h⟩
  exact (Status.getLsbD_zero_word s.status).trans hidle.1

/-- Settles O39: the list of R68 is the reserved addresses of the map; a write to `CTRL` reads its low three bits. -/
theorem reservedAddressesRefuse : Obligations.ReservedAddressesRefuse := by
  intro s w
  refine ⟨fun a ha => ⟨busRead_eq_zero (.inr ha) s, busWrite_reserved ((reservedAddress_iff a).1 ha) w s⟩, rfl,
    Ctrl.word_toNat_lt s.ctrl, ?_⟩
  have hb (v : Word) : busWrite 0x00 v s = lockedWrite .ctrl v s := busWrite_locked rfl v s
  simp only [hb, lockedWrite, storeReg, Ctrl.written_low]

/-- Settles O59, from the word address an access stands for and the bytes of a word put together again. -/
theorem bridgeForwardsWholeWords : Obligations.BridgeForwardsWholeWords := by
  intro base a w hbase
  have haddr := bridgeAddr_word hbase a
  refine ⟨?_, by rw [bridgeRead, haddr]; rfl, fun byteAddr size bytes => ⟨fun h => ?_, fun h => ?_⟩⟩
  · have hlen : (wordBytes w).length = 4 := rfl
    simp only [bridgeWrite, hlen, haddr, bytesWord_wordBytes]
  · rw [bridgeRead, bridgeAddr_eq_none h, Option.map_none]
  · simp only [bridgeWrite, bridgeAddr_eq_none h]

/-- Settles O1: the write goes to `CMD`, and `Execute` finds the operation. -/
theorem stepRunsDecodedOperation : Obligations.StepRunsDecodedOperation := by
  intro s w rest i hp hd
  rw [step_write hp, busWrite_cmd, execute_ok hd]

/-- Settles O35: a read changes the host's side only, which no read sees. -/
theorem readsAndIdlenessChangeNothing : Obligations.ReadsAndIdlenessChangeNothing := by
  refine fun s => ⟨fun a rest t hp h => ?_, step_idle⟩
  rw [step_read hp] at h
  injection h with h
  subst h
  exact ⟨busRead_congr rfl rfl rfl, rfl, rfl, rfl⟩

end Sys2Proof.Machine
end

section
/-! Encoding and dispatch (R92 to R106): a word is the operation its fields name and back, the rows of the table, and the
words that are refused; then the statements of the family. -/

namespace Sys2Proof

/-! ### The fields of a word -/

@[simp] theorem zeroField_opw (opc arg : BitVec 8) : zeroField (opw opc arg) = 0 := by
  rw [zeroField, opw, BitVec.append_assoc, BitVec.cast_eq]
  exact BitVec.extractLsb'_append_eq_left

@[simp] theorem opcField_opw (opc arg : BitVec 8) : opcField (opw opc arg) = opc := by
  rw [opcField, opw, BitVec.extractLsb'_append_eq_of_le (by decide)]
  exact BitVec.extractLsb'_append_eq_right

@[simp] theorem argField_opw (opc arg : BitVec 8) : argField (opw opc arg) = arg := BitVec.extractLsb'_append_eq_right

theorem opw_toNat (opc arg : BitVec 8) : (opw opc arg).toNat = opc.toNat * 2 ^ 8 + arg.toNat := by
  rw [opw, BitVec.toNat_append, BitVec.toNat_append, ← Nat.shiftLeft_add_eq_or_of_lt arg.isLt, Nat.shiftLeft_eq]
  simp

/-- The three fields of a word of format `OPW` as numbers (R92). -/
theorem opw_toNat_fields (opc arg : BitVec 8) :
    (opw opc arg).toNat / 2 ^ 16 = 0 ∧ (opw opc arg).toNat / 2 ^ 8 % 2 ^ 8 = opc.toNat ∧
      (opw opc arg).toNat % 2 ^ 8 = arg.toNat := by
  have hopc := opc.isLt
  have harg := arg.isLt
  rw [opw_toNat]
  omega

/-- A mask of ones over the upper half and `OPC` fixes both fields and compares the masked `ARG` (R95). -/
theorem fields_of_masked {w mask pattern : Word} (h : w &&& mask = pattern) (hzero : zeroField mask = BitVec.allOnes 16)
    (hopc : opcField mask = BitVec.allOnes 8) :
    zeroField w = zeroField pattern ∧ opcField w = opcField pattern ∧ argField w &&& argField mask = argField pattern := by
  subst h
  simp only [zeroField, opcField, argField, BitVec.extractLsb'_and] at *
  simp only [hzero, hopc, BitVec.and_allOnes, and_self]

/-! ### Decoding and encoding -/

/-- A word of format `OPW` decodes to what its `OPC` and `ARG` name. -/
theorem decode_opw (opc arg : BitVec 8) : decode (opw opc arg) = decodeOpc opc arg := by
  rw [decode, zeroField_opw, opcField_opw, argField_opw, if_pos rfl]

theorem decode_encode {i : Instr} (h : i.wellFormed = true) : decode (encode i) = .ok i := by
  cases i with
  | bqProc arg => exact (decode_opw 0x20 arg).trans (decodeBqProc_ok.2 ⟨of_decide_eq_true h, rfl⟩)
  | _ => exact decode_opw _ _

theorem encode_of_decode {w : Word} {i : Instr} (h : decode w = .ok i) : encode i = w ∧ i.wellFormed = true := by
  obtain ⟨hzero, hopc⟩ := decode_ok.1 h
  obtain ⟨hencode, hwf⟩ := decodeOpc_ok hopc
  exact ⟨hencode.trans (opw_fields hzero), hwf⟩

/-- The fields, as numbers, of the words that are operations (R93, R95). -/
theorem fields_of_decode {w : Word} {i : Instr} (h : decode w = .ok i) :
    w.toNat / 2 ^ 16 = 0 ∧
      ((w.toNat / 2 ^ 8 % 2 ^ 8 ∈ [0x01, 0x10, 0x12, 0x30, 0x31, 0x32, 0x33] ∧ w.toNat % 2 ^ 8 = 0) ∨
        w.toNat / 2 ^ 8 % 2 ^ 8 = 0x11 ∨ (w.toNat / 2 ^ 8 % 2 ^ 8 = 0x20 ∧ w.toNat % 2 ^ 8 ≤ 3)) := by
  obtain ⟨rfl, hwf⟩ := encode_of_decode h
  cases i with
  | oscHarm k =>
    obtain ⟨hupper, hopc, -⟩ := opw_toNat_fields 0x11 k
    exact ⟨hupper, .inr (.inl hopc)⟩
  | bqProc arg =>
    obtain ⟨hupper, hopc, harg⟩ := opw_toNat_fields 0x20 arg
    exact ⟨hupper, .inr (.inr ⟨hopc, harg.trans_le (of_decide_eq_true hwf)⟩)⟩
  | _ => decide

/-- The word of `OSC.HARM k` as a sum (R95). -/
theorem oscHarm_word (k : BitVec 8) : 0x00001100 + k.zeroExtend 32 = opw 0x11 k := by
  apply BitVec.eq_of_toNat_eq
  rw [opw_toNat]
  bv_omega

/-! ### The operation table -/

/-- The word of every operation is selected by the row with its mnemonic (R95). -/
theorem encode_selected (i : Instr) : Laws.EncodeSelected.Statement i := by
  cases i with
  | sample => exact Laws.EncodeSelected.sample
  | oscSin => exact Laws.EncodeSelected.oscSin
  | oscHarm k => exact Laws.EncodeSelected.oscHarm k
  | oscAdv => exact Laws.EncodeSelected.oscAdv
  | bqProc arg => exact Laws.EncodeSelected.bqProc arg
  | encMono => exact Laws.EncodeSelected.encMono
  | encDiff => exact Laws.EncodeSelected.encDiff
  | encMix => exact Laws.EncodeSelected.encMix
  | encExt => exact Laws.EncodeSelected.encExt

theorem opcodeTable_mnemonic_injective :
    ∀ row₁ ∈ opcodeTable, ∀ row₂ ∈ opcodeTable, row₁.mnemonic = row₂.mnemonic → row₁ = row₂ := by decide

/-- Every row compares the whole word, but those of the two operations with an argument. -/
theorem opcodeTable_mask : ∀ row ∈ opcodeTable, row.mask = BitVec.allOnes 32 ∨
    row = ⟨"OSC.HARM", 0x00001100, 0xFFFFFF00⟩ ∨ row = ⟨"BQ.PROC", 0x00002000, 0xFFFFFFFC⟩ := by decide

theorem decode_pattern : ∀ row ∈ opcodeTable, ∃ i, decode row.pattern = .ok i ∧ i.mnemonic = row.mnemonic := by
  simp only [opcodeTable, List.forall_mem_cons, List.not_mem_nil, false_imp_iff, implies_true, and_true]
  exact ⟨⟨.sample, rfl, rfl⟩, ⟨.oscSin, rfl, rfl⟩, ⟨.oscHarm 0, rfl, rfl⟩, ⟨.oscAdv, rfl, rfl⟩, ⟨.bqProc 0, rfl, rfl⟩,
    ⟨.encMono, rfl, rfl⟩, ⟨.encDiff, rfl, rfl⟩, ⟨.encMix, rfl, rfl⟩, ⟨.encExt, rfl, rfl⟩⟩

/-- A word that a row selects decodes to an operation with the row's mnemonic. -/
theorem decode_of_selects {row : OpRow} {w : Word} (hmem : row ∈ opcodeTable) (h : row.selects w = true) :
    ∃ i, decode w = .ok i ∧ i.mnemonic = row.mnemonic := by
  have hmasked : w &&& row.mask = row.pattern := beq_iff_eq.1 h
  rcases opcodeTable_mask row hmem with hall | rfl | rfl
  · rw [hall, BitVec.and_allOnes] at hmasked
    exact hmasked ▸ decode_pattern row hmem
  · obtain ⟨hzero, hopc, -⟩ := fields_of_masked hmasked rfl rfl
    refine ⟨.oscHarm (argField w), decode_ok.2 ⟨hzero, ?_⟩, rfl⟩
    rw [hopc]
    rfl
  · obtain ⟨hzero, hopc, harg⟩ := fields_of_masked hmasked rfl rfl
    have hle : ∀ a : BitVec 8, a &&& 0xFC = 0 → a.toNat ≤ 3 := by decide
    refine ⟨.bqProc (argField w), decode_ok.2 ⟨hzero, ?_⟩, rfl⟩
    rw [hopc]
    exact decodeBqProc_ok.2 ⟨hle _ harg, rfl⟩

end Sys2Proof

namespace Sys2Proof.Machine

/-- Every operation requested in the CONFIG phase is refused with `ERR_NRUN` (R94). -/
theorem exec_config {i : Instr} {s : State} (hwf : i.wellFormed = true) (hr : s.ctrl.run = false) :
    exec i s = .next (refuse .errNrun s) := by
  obtain ⟨op, hop⟩ := exec_of_wellFormed hwf s
  exact hop.trans (request_config hr)

/-! ## The statements of the family -/

/-- Settles O3: the fields of the word are those the encoder put there. -/
theorem decodeEncodeRoundTrip : Obligations.DecodeEncodeRoundTrip := fun _ hwf => decode_encode hwf

/-- Settles O4, from the fields the decoder looks at. -/
theorem encodeDecodeRoundTrip : Obligations.EncodeDecodeRoundTrip := fun _ _ hd => encode_of_decode hd

/-- Settles O5: a selected word decodes to an operation with the row's mnemonic, and no two rows share one. -/
theorem decodeSelectsTableRow : Obligations.DecodeSelectsTableRow := by
  intro w
  have hmnemonic : ∀ i row, decode w = .ok i → row ∈ opcodeTable → row.selects w = true →
      row.mnemonic = i.mnemonic := by
    intro i row hd hmem hsel
    obtain ⟨j, hj, hm⟩ := decode_of_selects hmem hsel
    obtain rfl : i = j := Except.ok.inj (hd.symm.trans hj)
    exact hm.symm
  refine ⟨⟨?_, ?_⟩, hmnemonic, ?_⟩
  · rintro ⟨i, hd⟩
    obtain ⟨rfl, hwf⟩ := encode_of_decode hd
    obtain ⟨row, hmem, -, hsel⟩ := encode_selected i hwf
    exact ⟨row, hmem, hsel⟩
  · rintro ⟨row, hmem, hsel⟩
    obtain ⟨i, hd, -⟩ := decode_of_selects hmem hsel
    exact ⟨i, hd⟩
  · intro row₁ hmem₁ row₂ hmem₂ hsel₁ hsel₂
    obtain ⟨i, hd, hm⟩ := decode_of_selects hmem₁ hsel₁
    exact opcodeTable_mnemonic_injective row₁ hmem₁ row₂ hmem₂ (hm.symm.trans (hmnemonic i row₂ hd hmem₂ hsel₂).symm)

/-- Settles O8: a well-formed operation is a datapath function behind the one refusal test. -/
theorem operationsRefusedInConfig : Obligations.OperationsRefusedInConfig := fun _ _ hwf hr => exec_config hwf hr

/-- Settles O2: the write goes to `CMD`; the decoder is asked first, the phase second. -/
theorem dispatchTestsDecodeThenPhase : Obligations.DispatchTestsDecodeThenPhase := by
  intro s w rest hp
  have hstep : step s = execute w { s with pending := rest, reply := .ack } := step_write hp
  rw [hstep]
  refine ⟨fun e hd => execute_error hd _, fun i hd hr => ?_, fun i hd _ => execute_ok hd _⟩
  obtain ⟨-, hwf⟩ := encode_of_decode hd
  exact (execute_ok hd _).trans (exec_config hwf hr)

/-- Settles O6: a word that decodes has the fields of an operation, and none of these words has them. -/
theorem notAnOperationIsRefused : Obligations.NotAnOperationIsRefused := by
  constructor
  · intro w s upper opc arg hrefused
    cases hd : decode w with
    | error e => exact execute_error hd s
    | ok i =>
      obtain ⟨hupper, hfields⟩ := fields_of_decode hd
      simp only [upper, opc, arg, List.mem_cons, List.not_mem_nil, or_false] at hrefused hfields
      omega
  · intro k
    rw [oscHarm_word]
    exact decode_opw 0x11 k

/-- Settles O7: each word is the encoder's. -/
theorem tableWordsDecode : Obligations.TableWordsDecode :=
  ⟨decode_encode (i := .sample) rfl, decode_encode (i := .oscSin) rfl, decode_encode (i := .oscHarm 255) rfl,
    decode_encode (i := .oscAdv) rfl, decode_encode (i := .bqProc 3) rfl, decode_encode (i := .encMono) rfl,
    decode_encode (i := .encDiff) rfl, decode_encode (i := .encMix) rfl, decode_encode (i := .encExt) rfl⟩

end Sys2Proof.Machine
end

section
/-! The arithmetic of `N_b32` (R122 to R132): infinities and the order, each operation on finite data as one rounding with
its error, the constants; then the formulas of `SAMPLE` over `N_real`, and the statements of the family. -/

namespace Sys2Proof.Machine

open B32

/-! ### Infinities and the order -/

namespace B32

theorem mag_le_of_not_isNaN {w : Word} (h : isNaN w = false) : mag w ≤ infMag := by
  rwa [← Bool.not_eq_true, isNaN_iff, not_lt] at h

theorem isInf_cases {w : Word} (h : isInf w = true) : w = 0x7F800000 ∨ w = 0xFF800000 := by
  rw [isInf_iff] at h
  cases hs : isNeg w
  · exact .inl (ext_mag hs h)
  · exact .inr (ext_mag hs h)

theorem pack_infMag {a : Word} (h : isInf a = true) : pack (isNeg a) infMag = a := by
  rw [← (isInf_iff a).1 h, pack_mag]

theorem units_lt_inf {w : Word} (h : isFinite w = true) : units w < magUnits infMag :=
  magUnits_strictMono ((isFinite_iff w).1 h)

/-- No datum but a NaN has a magnitude above that of the infinities. -/
theorem abs_value_le_inf {w : Word} (h : isNaN w = false) : |value w| ≤ magUnits infMag := by
  rw [Int.abs_eq_natAbs, natAbs_value]
  exact_mod_cast magUnits_strictMono.monotone (mag_le_of_not_isNaN h)

theorem abs_value_lt_inf {w : Word} (h : isFinite w = true) : |value w| < magUnits infMag := by
  rw [Int.abs_eq_natAbs, natAbs_value]
  exact_mod_cast units_lt_inf h

theorem fge_iff (a b : Word) : fge a b = true ↔ isNaN a = false ∧ isNaN b = false ∧ value b ≤ value a := by
  simp [fge, and_assoc]

/-- Of the data that are no NaNs only `+∞` is as large as itself. -/
theorem eq_posInf_of_le {w : Word} (h : isNaN w = false) (hle : (magUnits infMag : Int) ≤ value w) :
    w = 0x7F800000 := by
  cases hf : isFinite w
  · rcases isInf_cases ((nan_or_inf hf).resolve_left (by simp [h])) with rfl | rfl
    · rfl
    · exact absurd hle (by decide)
  · exact absurd (lt_of_abs_lt (abs_value_lt_inf hf)) (not_lt.2 hle)

/-- The order of data that are no NaNs: the infinities are outermost (R125). -/
theorem value_le_value_iff {a b : Word} (ha : isNaN a = false) (hb : isNaN b = false) :
    value b ≤ value a ↔
      a = 0x7F800000 ∨ b = 0xFF800000 ∨ (isFinite a = true ∧ isFinite b = true ∧ value b ≤ value a) := by
  have hpos : value 0x7F800000 = magUnits infMag := by decide
  have hneg : value 0xFF800000 = -(magUnits infMag : Int) := by decide
  constructor
  · intro h
    cases hfb : isFinite b
    · rcases isInf_cases ((nan_or_inf hfb).resolve_left (by simp [hb])) with rfl | rfl
      · exact .inl (eq_posInf_of_le ha (hpos ▸ h))
      · exact .inr (.inl rfl)
    · cases hfa : isFinite a
      · rcases isInf_cases ((nan_or_inf hfa).resolve_left (by simp [ha])) with rfl | rfl
        · exact .inl rfl
        · exact absurd (neg_lt_of_abs_lt (abs_value_lt_inf hfb)) (not_lt.2 (hneg ▸ h))
      · exact .inr (.inr ⟨rfl, rfl, h⟩)
  · rintro (rfl | rfl | ⟨-, -, h⟩)
    · exact hpos ▸ (abs_le.1 (abs_value_le_inf hb)).2
    · exact hneg ▸ (abs_le.1 (abs_value_le_inf ha)).1
    · exact h

theorem isNaN_fmul_zero_inf (d : Nat) {a b : Word} (ha : isZero a = true) (hb : isInf b = true) :
    isNaN (fmul d a b) = true ∧ isNaN (fmul d b a) = true := by
  simp [fmul, ha, hb, isNaN_of_finite (isFinite_of_zero ha), isNaN_of_inf hb]

/-- An infinity times anything but a zero or a NaN is the infinity with the product's sign (R128). -/
theorem fmul_inf (d : Nat) {a b : Word} (ha : isInf a = true) (hb : isNaN b = false) (hz : isZero b = false) :
    fmul d a b = pack (isNeg a != isNeg b) infMag ∧ fmul d b a = pack (isNeg a != isNeg b) infMag := by
  have hza : isZero a = false := by
    rw [← Bool.not_eq_true, isZero_iff, (isInf_iff a).1 ha]
    decide
  simp [fmul, ha, hb, hz, hza, isNaN_of_inf ha, bne_comm]

theorem fadd_infs_same (d : Nat) {a b : Word} (ha : isInf a = true) (hb : isInf b = true) (hs : isNeg a = isNeg b) :
    fadd d a b = a := by
  simp [fadd, ha, hs, isNaN_of_inf ha, isNaN_of_inf hb]

theorem isNaN_fadd_infs (d : Nat) {a b : Word} (ha : isInf a = true) (hb : isInf b = true) (hs : isNeg a ≠ isNeg b) :
    isNaN (fadd d a b) = true := by
  simp [fadd, ha, hb, hs, isNaN_of_inf ha, isNaN_of_inf hb]

/-- An infinity plus a finite datum, in either order, is the infinity. -/
theorem fadd_inf_finite (d : Nat) {a b : Word} (ha : isInf a = true) (hb : isFinite b = true) :
    fadd d a b = a ∧ fadd d b a = a := by
  simp [fadd, ha, isNaN_of_inf ha, isNaN_of_finite hb, isInf_of_finite hb]

theorem fhalf_inf (d : Nat) {a : Word} (h : isInf a = true) : fhalf d a = a := by
  simp [fhalf, h, isNaN_of_inf h]

end B32

/-! ### One rounding -/

/-- `r` is the sign of `z · 2^-(149+k)` with its rounded magnitude, either sign where `z` is 0. -/
def RoundedFrom (z : Int) (k : Nat) (r : Word) : Prop :=
  ∃ (neg : Bool) (n : Nat), z = (if neg = true then -(n : Int) else n) ∧ r = pack neg (roundMag n k)

theorem RoundedFrom.roundsTo {z : Int} {k : Nat} {r : Word} (h : RoundedFrom z k r) : RoundsTo z k r := by
  obtain ⟨neg, n, hz, rfl⟩ := h
  exact roundsTo_pack hz

/-- A sum is a rounding of the exact one. -/
theorem fadd_roundedFrom (d : Nat) {a b : Word} (ha : isFinite a = true) (hb : isFinite b = true) :
    RoundedFrom (value a + value b) 0 (fadd d a b) := by
  rw [fadd_finite d ha hb]
  by_cases h0 : value a + value b = 0
  · refine ⟨isNeg a && isNeg b, 0, by simp [h0], ?_⟩
    rw [addFinite_zero h0, roundMag_zero]
    cases isNeg a && isNeg b <;> decide
  · refine ⟨_, _, ?_, addFinite_nonzero h0⟩
    simp only [decide_eq_true_eq]
    split <;> omega

theorem fsub_roundedFrom (d : Nat) {a b : Word} (ha : isFinite a = true) (hb : isFinite b = true) :
    RoundedFrom (value a - value b) 0 (fsub d a b) := by
  rw [fsub_eq, sub_eq_add_neg, ← value_fneg]
  exact fadd_roundedFrom d ha (by rwa [isFinite_fneg])

theorem fmul_roundedFrom (d : Nat) {a b : Word} (ha : isFinite a = true) (hb : isFinite b = true) :
    RoundedFrom (value a * value b) 149 (fmul d a b) := by
  refine ⟨_, _, ?_, fmul_finite d ha hb⟩
  unfold value
  cases isNeg a <;> cases isNeg b <;> simp

theorem fhalf_roundedFrom (d : Nat) {a : Word} (ha : isFinite a = true) : RoundedFrom (value a) 1 (fhalf d a) :=
  ⟨_, _, rfl, fhalf_finite d ha⟩

/-- Twice the error of a rounded magnitude is at most one unit of its last place, `2^(t+k)`; above the smallest exponent
the operand has 24 bits over that unit. -/
theorem roundMag_error {n k : Nat} (hr : roundMag n k < infMag) :
    ∃ t, 2 * |(magUnits (roundMag n k) : Int) * 2 ^ k - n| ≤ 2 ^ (t + k) ∧ (t = 0 ∨ 2 ^ (23 + (t + k)) ≤ n) := by
  obtain ⟨t, q, hq, hle, hbig, he⟩ := roundMag_parts n k
  obtain ⟨h1, h2, -⟩ := roundShift_spec n (t + k)
  rw [← hq] at h1 h2
  rw [he] at hr ⊢
  rw [Nat.min_eq_left (by omega), magUnits_compose hle (by omega)]
  refine ⟨t, ?_, hbig.imp_right fun h => pow_add 2 23 (t + k) ▸ h.2⟩
  have h1' : 2 * (n : Int) ≤ (2 * q + 1) * 2 ^ (t + k) := by exact_mod_cast h1
  have h2' : 2 * ((q : Int) * 2 ^ (t + k)) ≤ 2 * n + 2 ^ (t + k) := by exact_mod_cast h2
  rw [show ((q * 2 ^ t : Nat) : Int) * 2 ^ k = q * 2 ^ (t + k) by push_cast; rw [pow_add]; ring]
  rcases abs_cases ((q : Int) * 2 ^ (t + k) - n) with ⟨e, -⟩ | ⟨e, -⟩ <;> rw [e] <;> linarith

theorem twiceOverflow_le_iff (n k : Nat) : twiceOverflow k ≤ 2 * (n : Int) ↔ roundMag n k = infMag := by
  rw [roundMag_eq_inf_iff, twiceOverflow, show (2 ^ 25 - 1 : Int) = ((2 ^ 25 - 1 : Nat) : Int) by norm_num]
  exact_mod_cast Iff.rfl

/-- The error of one rounding (R132), as `RoundingErrorBounds` words it: relative at most `2^-24` from the smallest normal
on, absolute at most half a unit of the subnormal grid below it. -/
theorem RoundedFrom.error {z : Int} {k : Nat} {r : Word} (h : RoundedFrom z k r) (hz : 2 * |z| < twiceOverflow k) :
    (2 ^ (23 + k) ≤ |z| → 2 ^ 24 * |value r * 2 ^ k - z| ≤ |z|) ∧
      (|z| < 2 ^ (23 + k) → 2 * |value r * 2 ^ k - z| ≤ 2 ^ k) := by
  obtain ⟨neg, n, rfl, rfl⟩ := h
  have habs : |(if neg = true then -(n : Int) else n)| = n := by cases neg <;> simp
  rw [habs] at hz ⊢
  have hr : roundMag n k < infMag :=
    lt_of_le_of_ne (roundMag_le n k) fun h => not_le.2 hz ((twiceOverflow_le_iff n k).2 h)
  have herr : |value (pack neg (roundMag n k)) * 2 ^ k - (if neg = true then -(n : Int) else n)| =
      |(magUnits (roundMag n k) : Int) * 2 ^ k - n| := by
    rw [value_pack neg (roundMag_lt n k)]
    cases neg
    · rfl
    · rw [if_pos rfl, if_pos rfl, ← abs_neg]
      ring_nf
  rw [herr]
  obtain ⟨t, ht, hn⟩ := roundMag_error hr
  have e : (2 : Int) ^ (23 + k) = 2 ^ 23 * 2 ^ k := pow_add 2 23 k
  rcases hn with rfl | hn
  · rw [zero_add] at ht
    constructor <;> intro h <;> linarith
  · have hn' : (2 : Int) ^ 23 * 2 ^ (t + k) ≤ n := by
      rw [pow_add] at hn
      exact_mod_cast hn
    have hk : (2 : Int) ^ k ≤ 2 ^ (t + k) := pow_le_pow_right₀ (by norm_num) (by omega)
    constructor <;> intro h <;> linarith

/-! ### The half -/

/-- From exponent field 2 on, the number is twice the one whose exponent field is one lower (R124). -/
theorem magUnits_add_exponent {m : Nat} (h : 2 ^ 23 ≤ m) : magUnits (m + 2 ^ 23) = magUnits m * 2 ^ 1 := by
  obtain ⟨t, q, rfl, hq, hn⟩ := exists_compose m
  have hq' : 2 ^ 23 ≤ q := by omega
  rw [show t * 2 ^ 23 + q + 2 ^ 23 = (t + 1) * 2 ^ 23 + q by ring, magUnits_compose hq.le (.inr hq'),
    magUnits_compose hq.le (.inr hq'), pow_succ, pow_one, mul_assoc]

/-- `fhalf` takes one off an exponent field of at least 2 (R124). -/
theorem fhalf_eq_sub (d : Nat) {a : Word} (h2 : 2 ≤ expField a) (h254 : expField a ≤ 254) :
    fhalf d a = a - 0x00800000 := by
  have hlo : 2 * 2 ^ 23 ≤ mag a := (Nat.le_div_iff_mul_le (by norm_num)).1 h2
  have hhi : mag a < 255 * 2 ^ 23 := (Nat.div_lt_iff_lt_mul (by norm_num)).1 (Nat.lt_succ_of_le h254)
  have hinf : infMag = 255 * 2 ^ 23 := by decide
  obtain ⟨m, hm⟩ := Nat.exists_eq_add_of_le' (show 2 ^ 23 ≤ mag a by omega)
  rw [fhalf_finite d ((isFinite_iff a).2 (hinf ▸ hhi)), units, hm, magUnits_add_exponent (by omega),
    roundMag_magUnits 1 (by omega)]
  have hc : (0x00800000 : Word).toNat = 2 ^ 23 := by decide
  have ha := toNat_eq a
  apply BitVec.eq_of_toNat_eq
  rw [pack_toNat (isNeg a) (by have := mag_lt a; omega),
    BitVec.toNat_sub_of_le (BitVec.le_def.2 (by rw [hc]; omega)), hc, ha, hm, ← Nat.add_assoc, Nat.add_sub_cancel]

/-- The half is the product with 0.5, draws included (R124). -/
theorem fhalf_eq_fmul (d : Nat) (a : Word) : fhalf d a = fmul d a 0x3F000000 := by
  have hu : units 0x3F000000 = 2 ^ 148 := by decide
  have hs : (isNeg a != isNeg 0x3F000000) = isNeg a := by
    rw [show isNeg 0x3F000000 = false by decide, Bool.bne_false]
  cases hf : isFinite a
  · rcases nan_or_inf hf with h | h
    · simp [fhalf, fmul, h]
    · rw [fhalf_inf d h, (fmul_inf d h (by decide) (by decide)).1, hs, pack_infMag h]
  · rw [fhalf_finite d hf, fmul_finite d hf (by decide), hs, hu, mul_comm, show 149 = 1 + 148 by rfl, roundMag_scale]

/-! ### Integers and constants -/

/-- `fofnat` is exact: the integer is a number of the format, which rounds to itself (R126). -/
theorem fofnat_exact (k : BitVec 8) :
    isFinite (fofnat k) = true ∧ isNeg (fofnat k) = false ∧ value (fofnat k) = k.toNat * 2 ^ 149 := by
  obtain ⟨m, hm, hu⟩ := exists_magUnits_eq (q := k.toNat) (t := 149) (by omega) (by norm_num)
  have hround := roundMag_magUnits 0 hm
  rw [hu, pow_zero, mul_one, mul_comm] at hround
  have hm31 : m < 2 ^ 31 := hm.trans (by decide)
  rw [fofnat, ofNat, hround, isFinite_iff, mag_pack _ hm31, isNeg_pack _ hm31, value_pack _ hm31, hu]
  exact ⟨hm, rfl, by simp⟩

/-- A datum nearer to the number than every other value is the nearest one: there is no tie. -/
theorem isNearest_of_lt {w : Word} {x : ℝ} (hw : isFinite w = true)
    (h : ∀ u, realOf u ≠ realOf w → |realOf w - x| < |realOf u - x|) : IsNearest x w := by
  refine ⟨hw, fun u _ => ?_⟩
  by_cases hu : realOf u = realOf w
  · exact ⟨(congrArg (|· - x|) hu).ge, fun _ hne => absurd hu hne⟩
  · exact ⟨(h u hu).le, fun he => absurd he (h u hu).ne⟩

theorem isNearest_realOf {w : Word} (hw : isFinite w = true) : IsNearest (realOf w) w :=
  isNearest_of_lt hw fun u hu => by simpa [sub_eq_zero] using hu

/-- No datum lies strictly between the numbers of consecutive patterns. -/
theorem value_le_or_eq_or_ge (u : Word) (m : Nat) :
    value u ≤ magUnits m ∨ value u = magUnits (m + 1) ∨ (magUnits (m + 2) : Int) ≤ value u := by
  cases hs : isNeg u
  · rw [value_nonneg_of_pos hs]
    rcases lt_trichotomy (mag u) (m + 1) with h | h | h
    · exact .inl (by exact_mod_cast magUnits_strictMono.monotone (Nat.le_of_lt_succ h))
    · exact .inr (.inl (by rw [units, h]))
    · exact .inr (.inr (by exact_mod_cast magUnits_strictMono.monotone h))
  · left
    rw [value_of_neg hs]
    omega

/-- A datum is the nearest one to every number between the midpoints to its two neighbours. -/
theorem isNearest_pack {m : Nat} {x : ℝ} (hm : m + 1 < infMag)
    (hlo : (magUnits m + magUnits (m + 1) : ℝ) / 2 ^ 150 < x)
    (hhi : x < (magUnits (m + 1) + magUnits (m + 2)) / 2 ^ 150) : IsNearest x (pack false (m + 1)) := by
  have hm31 : m + 1 < 2 ^ 31 := hm.trans (by decide)
  have hv : value (pack false (m + 1)) = magUnits (m + 1) := value_pack false hm31
  have hlt : (magUnits m : ℝ) < magUnits (m + 1) := by exact_mod_cast magUnits_lt_succ m
  have hlt' : (magUnits (m + 1) : ℝ) < magUnits (m + 2) := by exact_mod_cast magUnits_lt_succ (m + 1)
  refine isNearest_of_lt (by rwa [isFinite_iff, mag_pack _ hm31]) fun u hne => ?_
  simp only [realOf, hv, Int.cast_natCast] at hne ⊢
  rcases value_le_or_eq_or_ge u m with h | h | h
  · have hu : (value u : ℝ) ≤ magUnits m := by exact_mod_cast h
    exact lt_of_lt_of_le (abs_lt.2 ⟨by linarith, by linarith⟩) (neg_le_abs _)
  · exact absurd (by rw [h, Int.cast_natCast]) hne
  · have hu : (magUnits (m + 2) : ℝ) ≤ value u := by exact_mod_cast h
    exact lt_of_lt_of_le (abs_lt.2 ⟨by linarith, by linarith⟩) (le_abs_self _)

/-- The midpoint of a normal datum and the next, by its significand and exponent. -/
theorem midpoint_significand {t q s : Nat} (hq : 2 ^ 23 ≤ q) (hq' : q < 2 ^ 24) (hs : t + s = 149) :
    (magUnits (t * 2 ^ 23 + q) + magUnits (t * 2 ^ 23 + q + 1) : ℝ) / 2 ^ 150 = (q + 1 / 2) / 2 ^ s := by
  have hpow : (2 : ℝ) ^ 150 = 2 ^ t * (2 * 2 ^ s) := by rw [mul_left_comm, ← pow_add, hs]; norm_num
  rw [Nat.add_assoc, magUnits_compose hq'.le (.inr hq), magUnits_compose hq' (.inr (by omega)), hpow]
  push_cast
  field_simp
  ring

/-- A normal datum by its significand and exponent is `q · 2^-s` (R90). -/
theorem realOf_significand {t q s : Nat} (hq : 2 ^ 23 < q) (hq' : q < 2 ^ 24) (hs : t + s = 149) :
    realOf (pack false (t * 2 ^ 23 + q)) = q / 2 ^ s := by
  rw [realOf, value_pack false (by omega), if_neg (by decide), magUnits_compose hq'.le (.inr hq.le), ← hs, pow_add]
  push_cast
  rw [mul_comm (q : ℝ), mul_div_mul_left _ _ (by positivity)]

/-- A datum whose significand is within one half of the number scaled by `2^s` is the nearest one to that number. -/
theorem isNearest_of_significand {t q s : Nat} {x : ℝ} (hq : 2 ^ 23 < q) (hq' : q < 2 ^ 24) (hs : t + s = 149)
    (h : |x * 2 ^ s - q| < 1 / 2) : IsNearest x (pack false (t * 2 ^ 23 + q)) := by
  obtain ⟨p, rfl⟩ := Nat.exists_eq_add_of_le' (show 1 ≤ q by omega)
  obtain ⟨hlo, hhi⟩ := abs_lt.1 h
  push_cast at hlo hhi
  have hp : (0 : ℝ) < 2 ^ s := by positivity
  rw [← Nat.add_assoc]
  apply isNearest_pack
  · unfold infMag; omega
  · rw [midpoint_significand (by omega) (by omega) hs, div_lt_iff₀ hp]
    linarith
  · have hmid := midpoint_significand hq.le hq' hs
    rw [← Nat.add_assoc] at hmid
    rw [hmid, lt_div_iff₀ hp]
    push_cast
    linarith

/-! ### `SAMPLE` over the real numbers -/

section Sample

variable {F : Type} (N : Numerics F) (c : Ctrl) (m : Datapath F)

theorem encMix_v : (encMix N c m).v =
    { m.v with composite := if c.stereo = true then stereoMix N m.draws m.v else m.v.mono } := by
  rw [encMix]
  split <;> rfl

theorem sample_mono :
    ∃ d, (sample N c m).v.mono = N.fhalf (d + 1) (N.fadd d (sample N c m).v.lpL (sample N c m).v.lpR) :=
  ⟨(filters N m).draws, by simp [sample_unrolled, filters, encMix_v]⟩

theorem sample_diff :
    ∃ d, (sample N c m).v.diff = N.fhalf (d + 1) (N.fsub d (sample N c m).v.lpL (sample N c m).v.lpR) :=
  ⟨(filters N m).draws + 2, by simp [sample_unrolled, filters, encMix_v]⟩

/-- The composite is made of the values the same `SAMPLE` has written (R203, R206). -/
theorem sample_composite :
    ∃ d d', (sample N c m).v.composite =
      N.fadd d (if c.stereo = true then stereoMix N d' (sample N c m).v else (sample N c m).v.mono)
        (if c.extEn = true then m.v.externalMpx else N.cZero) := by
  have hext : (filters N m).v.externalMpx = m.v.externalMpx :=
    filters_v_ne N m (r := .externalMpx) fun i => by cases i <;> decide
  refine ⟨(encMix N c (oscHarm N 2 (oscSin N (encDiff N (encMono N (filters N m)))))).draws,
    (filters N m).draws + 5, ?_⟩
  rw [← hext]
  simp [sample_unrolled, filters, encMix_v, stereoMix]

end Sample

/-- The stereo mix of sines and of channels of at most 1 is at most `0.45 + 0.09 + 0.45` (R205). -/
theorem abs_mix_le {a p b q : ℝ} (ha : |a| ≤ 1) (hp : |p| ≤ 1) (hb : |b| ≤ 1) (hq : |q| ≤ 1) :
    |a * 0.45 + p * 0.09 + b * q * 0.45| ≤ 0.99 := by
  have hbq : |b * q| ≤ 1 := by
    rw [abs_mul]
    exact mul_le_one₀ hb (abs_nonneg q) hq
  rw [abs_le] at ha hp hbq ⊢
  constructor <;> norm_num1 <;> linarith

/-! ## The statements of the family -/

/-- Settles O15, from what the corrections of the open parameter leave of it. -/
theorem sineProperties : Obligations.SineProperties := by
  refine ⟨fsin_zero (by decide), fsin_zero (by decide), fun a ha => ⟨isFinite_fsin ha, ?_⟩, fun _ => isNaN_fsin⟩
  rw [Int.abs_eq_natAbs, natAbs_value, value_nonneg_of_pos (by decide)]
  exact_mod_cast units_fsin_le ha

/-- Settles O28: `SAMPLE`'s closed form over `N_real`; the pilot and the subcarrier are sines. -/
theorem realCompositeFormula : Obligations.RealCompositeFormula := by
  intro c m
  obtain ⟨_, hmono⟩ := sample_mono exact c m
  obtain ⟨_, hdiff⟩ := sample_diff exact c m
  obtain ⟨_, hsub⟩ := sample_subcarrier exact c m
  obtain ⟨_, _, hcomp⟩ := sample_composite exact c m
  have hpilot := sample_pilot exact c m
  refine ⟨hmono, hdiff, hpilot, hsub, ?_, fun ha hb => abs_mix_le ha ?_ hb ?_⟩
  · rw [hcomp]
    norm_num [exact, stereoMix]
  · exact hpilot ▸ Real.abs_sin_le_one _
  · exact hsub ▸ Real.abs_sin_le_one _

/-- Settles O49: both are roundings of the exact result, and a zero result has the sign the operands give it. -/
theorem sumIsNearest : Obligations.SumIsNearest := by
  intro d a b ha hb
  refine ⟨(fadd_roundedFrom d ha hb).roundsTo, (fsub_roundedFrom d ha hb).roundsTo, fun h => ?_, fun h => ?_⟩
  · rw [fadd_finite d ha hb, addFinite_zero h]
    simp [negZero, posZero]
  · rw [fsub_eq, fadd_finite d ha (by rwa [isFinite_fneg]), addFinite_zero (by rwa [value_fneg, ← sub_eq_add_neg])]
    simp [negZero, posZero]

/-- Settles O50: the sign and the magnitude are computed apart, and the magnitude is rounded once. -/
theorem productIsNearest : Obligations.ProductIsNearest := fun d _ _ ha hb =>
  ⟨(fmul_roundedFrom d ha hb).roundsTo, isNeg_fmul d ha hb⟩

/-- Settles O51: above the bottom the rounding has nothing to do; the product with 0.5 is the same rounding in another
unit. -/
theorem halfIsExactAboveBottom : Obligations.HalfIsExactAboveBottom := by
  intro d a
  refine ⟨fhalf_eq_sub d, fun ha => ⟨(fhalf_roundedFrom d ha).roundsTo, ?_⟩, ?_, fhalf_eq_fmul d a⟩
  · rw [fhalf_finite d ha, isNeg_pack _ (roundMag_lt _ _)]
  · rintro (h | h)
    · exact fhalf_zero d h
    · exact fhalf_inf d h

/-- Settles O52, from the order of data that are no NaNs. -/
theorem greaterEqualIsOrder : Obligations.GreaterEqualIsOrder := fun a b => by
  rw [fge_iff]
  exact and_congr_right fun ha => and_congr_right fun hb => value_le_value_iff ha hb

/-- Settles O53: the integers have at most 24 bits, and each constant lies between the midpoints to its neighbours. -/
theorem integersAndConstants : Obligations.IntegersAndConstants := by
  have hpi := Real.pi_gt_d20
  have hpi' := Real.pi_lt_d20
  have e2pi : c2pi = pack false (128 * 2 ^ 23 + 13176795) := by decide
  have e045 : c045 = pack false (124 * 2 ^ 23 + 15099494) := by decide
  have e009 : c009 = pack false (122 * 2 ^ 23 + 12079596) := by decide
  unfold Obligations.IntegersAndConstants
  simp only [b32_cZero, b32_c2pi, b32_c045, b32_c009, abs_le]
  refine ⟨fofnat_exact, rfl, rfl, rfl, rfl, ?_, ?_, ?_, ?_, ?_, ?_, ?_⟩
  · have h0 : realOf posZero = 0 := by simp [realOf, show value posZero = 0 by decide]
    exact h0 ▸ isNearest_realOf (by decide)
  · rw [e2pi]
    exact isNearest_of_significand (s := 21) (by norm_num) (by norm_num) rfl (abs_lt.2 ⟨by linarith, by linarith⟩)
  · rw [e045]
    exact isNearest_of_significand (s := 25) (by norm_num) (by norm_num) rfl (by norm_num [abs_lt])
  · rw [e009]
    exact isNearest_of_significand (s := 27) (by norm_num) (by norm_num) rfl (by norm_num [abs_lt])
  · rw [e2pi, realOf_significand (s := 21) (by norm_num) (by norm_num) rfl]
    constructor <;> norm_num1 <;> linarith
  · rw [e045, realOf_significand (s := 25) (by norm_num) (by norm_num) rfl]
    norm_num
  · rw [e009, realOf_significand (s := 27) (by norm_num) (by norm_num) rfl]
    norm_num

/-- Settles O54: the branches of `fadd` and `fmul` on operands that are not finite; `fsub` turns a sign over first. -/
theorem naNAndInfinityRules : Obligations.NaNAndInfinityRules := by
  intro d a b
  refine ⟨fun h => ⟨isNaN_fadd d h, isNaN_fsub d h, isNaN_fmul d h⟩, isNaN_fhalf d, isNaN_fadd_infs d,
    fun ha hb hs => ?_, isNaN_fmul_zero_inf d, fun ha hb => ?_, fadd_infs_same d, fun ha hb hs => ?_,
    fun ha hb hz => ?_, fhalf_inf d⟩
  · rw [fsub_eq]
    exact isNaN_fadd_infs d ha (by rwa [isInf_fneg]) (by simp [hs])
  · rw [fsub_eq, fsub_eq]
    obtain ⟨hab, hba⟩ := fadd_inf_finite d ha hb
    exact ⟨hab, hba, (fadd_inf_finite d ha (by rwa [isFinite_fneg])).1,
      (fadd_inf_finite d (by rwa [isInf_fneg]) hb).2⟩
  · rw [fsub_eq]
    exact fadd_infs_same d ha (by rwa [isInf_fneg]) (by rw [isNeg_fneg]; exact Bool.eq_not_of_ne hs)
  · obtain ⟨hab, hba⟩ := fmul_inf d ha hb hz
    rw [hab, hba, isNeg_pack _ (by decide)]
    exact ⟨isInf_pack_inf _, rfl, isInf_pack_inf _, rfl⟩

/-- Settles O55: each operation is one rounding, and one rounding has this error. -/
theorem roundingErrorBounds : Obligations.RoundingErrorBounds := fun d _ _ ha hb =>
  ⟨(fadd_roundedFrom d ha hb).error, (fsub_roundedFrom d ha hb).error, (fmul_roundedFrom d ha hb).error,
    (fhalf_roundedFrom d ha).error⟩

end Sys2Proof.Machine
end

section
/-! The Oscillator (R150 to R161): one advance as a rounded sum and an exact difference, with its range and its error;
multiples of the phase; the phase over `N_real`; the design increments; then the statements of the family. -/

namespace Sys2Proof.Machine

open B32

/-! ### Roundings of numbers that are not negative -/

/-- The rounding of a number that is not negative is its rounded magnitude, whatever sign a zero has. -/
theorem RoundedFrom.of_natCast {n k : Nat} {r : Word} (h : RoundedFrom n k r) :
    mag r = roundMag n k ∧ value r = magUnits (roundMag n k) := by
  obtain ⟨neg, m, hz, rfl⟩ := h
  rw [mag_pack _ (roundMag_lt m k), value_pack _ (roundMag_lt m k)]
  cases neg
  · obtain rfl : n = m := Int.ofNat_inj.1 hz
    exact ⟨rfl, rfl⟩
  · obtain ⟨rfl, rfl⟩ : n = 0 ∧ m = 0 := by
      rw [if_pos rfl] at hz
      omega
    simp

/-- A number of at most `24 + e` bits is rounded to within half of `2^e`. -/
theorem RoundedFrom.half_unit {n e : Nat} {r : Word} (h : RoundedFrom n 0 r) (hf : isFinite r = true)
    (hn : n < 2 ^ (24 + e)) : 2 * |value r - n| ≤ 2 ^ e := by
  obtain ⟨hmag, hval⟩ := h.of_natCast
  obtain ⟨t, herr, hbig⟩ := roundMag_error (hmag ▸ (isFinite_iff r).1 hf)
  rw [pow_zero, mul_one, ← hval, add_zero] at herr
  have hte : t ≤ e := by
    rcases hbig with rfl | hbig
    · exact Nat.zero_le e
    · have := (Nat.pow_lt_pow_iff_right (by norm_num)).1 (hbig.trans_lt hn)
      omega
  exact herr.trans (pow_le_pow_right₀ (by norm_num) hte)

/-! ### One advance -/

/-- The phase after an advance that takes off `C_2PI` (R155). -/
theorem phaseAfter_wrap {d : Nat} {p inc : Word} (h : fge (fadd d p inc) c2pi = true) :
    phaseAfter b32 d p inc = fsub (d + 1) (fadd d p inc) c2pi := if_pos h

/-- The phase after an advance that only adds (R155). -/
theorem phaseAfter_keep {d : Nat} {p inc : Word} (h : fge (fadd d p inc) c2pi = false) :
    phaseAfter b32 d p inc = fadd d p inc := if_neg (by simp [h])

theorem value_c2pi : value c2pi = 13176795 * 2 ^ 128 := by decide

/-- The datum before `C_2PI`, the largest legal phase. -/
theorem magUnits_pred_c2pi : magUnits 0x40C90FDA = 13176794 * 2 ^ 128 := by decide

theorem PhaseLegal.value_eq_units {w : Word} (h : PhaseLegal w) : value w = units w := by
  rw [← natAbs_value, Int.natAbs_of_nonneg h.2.1]

theorem PhaseLegal.mag_le {w : Word} (h : PhaseLegal w) : mag w ≤ 0x40C90FDA := by
  have hlt := h.2.2
  rw [h.value_eq_units, show value c2pi = magUnits (0x40C90FDA + 1) by decide, Int.ofNat_lt] at hlt
  exact Nat.le_of_lt_succ (magUnits_strictMono.lt_iff_lt.1 hlt)

theorem PhaseLegal.units_le {w : Word} (h : PhaseLegal w) : units w ≤ 13176794 * 2 ^ 128 :=
  magUnits_pred_c2pi ▸ magUnits_strictMono.monotone h.mag_le

/-- `t` of R155 for legal values: the exact sum of their magnitudes, rounded once. -/
theorem fadd_legal_roundedFrom (d : Nat) {p inc : Word} (hp : PhaseLegal p) (hinc : PhaseLegal inc) :
    RoundedFrom (units p + units inc : Nat) 0 (fadd d p inc) := by
  have h := fadd_roundedFrom d hp.1 hinc.1
  rwa [hp.value_eq_units, hinc.value_eq_units, ← Nat.cast_add] at h

/-- The rounded sum of two legal phases is finite and at most twice the datum before `C_2PI`. -/
theorem fadd_legal (d : Nat) {p inc : Word} (hp : PhaseLegal p) (hinc : PhaseLegal inc) :
    isFinite (fadd d p inc) = true ∧ 0 ≤ value (fadd d p inc) ∧ value (fadd d p inc) ≤ 13176794 * 2 ^ 129 := by
  obtain ⟨hmag, hval⟩ := (fadd_legal_roundedFrom d hp hinc).of_natCast
  have hpu := hp.units_le
  have hiu := hinc.units_le
  have htwice : magUnits 0x41490FDA = 13176794 * 2 ^ 129 := by decide
  have hle : roundMag (units p + units inc) 0 ≤ 0x41490FDA := roundMag_le_of_le (by decide) (by rw [htwice]; omega)
  rw [isFinite_iff, hmag, hval]
  refine ⟨hle.trans_lt (by decide), Int.natCast_nonneg _, ?_⟩
  exact_mod_cast htwice ▸ magUnits_strictMono.monotone hle

/-- The sum of two legal phases is rounded to within half of `2^e` when the exact one has at most `24 + e` bits. -/
theorem fadd_legal_error (d : Nat) {p inc : Word} (hp : PhaseLegal p) (hinc : PhaseLegal inc) {e : Nat}
    (h : value p + value inc < 2 ^ (24 + e)) : 2 * |value (fadd d p inc) - (value p + value inc)| ≤ 2 ^ e := by
  rw [hp.value_eq_units, hinc.value_eq_units, ← Nat.cast_add] at h ⊢
  exact (fadd_legal_roundedFrom d hp hinc).half_unit (fadd_legal d hp hinc).1 (by exact_mod_cast h)

/-- Taking `C_2PI` off a sum of at least `C_2PI` and below twice it is exact (R155). -/
theorem fsub_c2pi_exact (d : Nat) {t : Word} (hf : isFinite t = true) (hlo : value c2pi ≤ value t)
    (hhi : value t ≤ 13176794 * 2 ^ 129) :
    isFinite (fsub d t c2pi) = true ∧ value (fsub d t c2pi) = value t - value c2pi := by
  rw [value_c2pi] at hlo ⊢
  have hv : value t = units t := by rw [← natAbs_value, Int.natAbs_of_nonneg (by omega)]
  obtain ⟨c, hc⟩ : ∃ c, units t = c * 2 ^ 128 :=
    (magUnits_grid (mag t) 128).resolve_right (by unfold units at hv; omega)
  obtain ⟨m, hm, hu⟩ := exists_magUnits_eq (q := c - 13176795) (t := 128) (by omega) (by norm_num)
  have hm31 : m < 2 ^ 31 := hm.trans (by decide)
  have hw : value (pack false m) = value t - 13176795 * 2 ^ 128 := by
    rw [value_pack _ hm31, hu, hv, hc]
    push_cast
    omega
  rw [← hw]
  exact fsub_exact d hf (by decide) (by rwa [isFinite_iff, mag_pack _ hm31]) (by rw [hw, value_c2pi])

/-- One advance between legal values: `C_2PI` is taken off exactly, or the sum is below it. -/
theorem phaseAfter_cases (d : Nat) {p inc : Word} (hp : PhaseLegal p) (hinc : PhaseLegal inc) :
    (fge (fadd d p inc) c2pi = true ∧ isFinite (phaseAfter b32 d p inc) = true ∧
        value c2pi ≤ value (fadd d p inc) ∧
        value (phaseAfter b32 d p inc) = value (fadd d p inc) - value c2pi) ∨
      (fge (fadd d p inc) c2pi = false ∧ phaseAfter b32 d p inc = fadd d p inc ∧
        value (fadd d p inc) < value c2pi) := by
  obtain ⟨hf, -, hhi⟩ := fadd_legal d hp hinc
  cases h : fge (fadd d p inc) c2pi
  · refine .inr ⟨rfl, phaseAfter_keep h, ?_⟩
    by_contra hc
    rw [(fge_iff _ _).2 ⟨isNaN_of_finite hf, by decide, not_lt.1 hc⟩] at h
    exact Bool.noConfusion h
  · obtain ⟨-, -, hlo⟩ := (fge_iff _ _).1 h
    obtain ⟨hf', hv'⟩ := fsub_c2pi_exact (d + 1) hf hlo hhi
    rw [phaseAfter_wrap h]
    exact .inl ⟨rfl, hf', hlo, hv'⟩

/-- One advance keeps the range of the phase (R156). -/
theorem phaseAfter_legal (d : Nat) {p inc : Word} (hp : PhaseLegal p) (hinc : PhaseLegal inc) :
    PhaseLegal (phaseAfter b32 d p inc) := by
  obtain ⟨hf, hnonneg, hhi⟩ := fadd_legal d hp hinc
  rcases phaseAfter_cases d hp hinc with ⟨-, hf', hlo, hv⟩ | ⟨-, he, hlt⟩
  · refine ⟨hf', by omega, ?_⟩
    rw [hv, value_c2pi]
    omega
  · rw [he]
    exact ⟨hf, hnonneg, hlt⟩

/-- An operation keeps the range of the phase: only `OSC.ADV` and `SAMPLE` move it, each by one advance (R156). -/
theorem datapathOp_phaseLegal (c : Ctrl) (i : Instr) {m : Datapath Word} (hp : PhaseLegal m.phase)
    (hinc : PhaseLegal m.phaseInc) : PhaseLegal (datapathOp b32 c i m).phase := by
  by_cases hadv : i = .oscAdv
  · rw [hadv, datapathOp, oscAdv_phase]
    exact phaseAfter_legal _ hp hinc
  · by_cases hsample : i = .sample
    · obtain ⟨d, hd⟩ := sample_phase b32 c m
      rw [hsample, datapathOp, hd]
      exact phaseAfter_legal d hp hinc
    · rwa [datapathOp_phase b32 c m hadv hsample]

theorem exec_phaseInRange {i : Instr} {s t : State} (hs : s.PhaseInRange) (h : exec i s = .next t) :
    t.PhaseInRange := by
  obtain ⟨hp, hinc⟩ := hs
  rcases exec_next h with ⟨-, -, rfl⟩ | ⟨-, -, rfl⟩ | ⟨-, rfl⟩
  · refine ⟨datapathOp_phaseLegal s.ctrl i hp hinc, ?_⟩
    rwa [operate_dp, datapathOp_phaseInc]
  · exact ⟨hp, hinc⟩
  · exact ⟨hp, hinc⟩

/-- A sum equal to `C_2PI` wraps to `+0.0` (R155). -/
theorem fsub_c2pi_self (d : Nat) : fsub d c2pi c2pi = posZero := by
  rw [fsub_eq, fadd_finite d (by decide) (by decide), addFinite_zero (by decide)]
  decide

/-- Adding `+0.0` leaves every finite datum but `−0.0` as it is (R123). -/
theorem fadd_posZero_right (d : Nat) {a : Word} (ha : isFinite a = true) (hne : a ≠ negZero) :
    fadd d a posZero = a := by
  cases hz : isZero a
  · exact fadd_zero_right d ha hz (by decide)
  · rw [fadd_zeros d hz (by decide)]
    cases hs : isNeg a
    · exact ((eq_of_isZero hz).trans (by simp [hs])).symm
    · exact absurd ((eq_of_isZero hz).trans (by simp [hs])) hne

/-- With the increment `+0.0` a legal phase other than `−0.0` stays (R155). -/
theorem phaseAfter_posZero (d : Nat) {p : Word} (hp : PhaseLegal p) (hne : p ≠ negZero) :
    phaseAfter b32 d p posZero = p := by
  have ht := fadd_posZero_right d hp.1 hne
  rcases phaseAfter_cases d hp phaseLegal_zero with ⟨-, -, hlo, -⟩ | ⟨-, he, -⟩
  · rw [show (0x00000000 : Word) = posZero from rfl, ht] at hlo
    exact absurd hp.2.2 (not_lt.2 hlo)
  · exact he.trans ht

/-! ### Multiples of the phase -/

/-- The word of `OSC.HARM k` as its pattern with `k` filled in (R95). -/
theorem oscHarm_or_word (k : BitVec 8) : encode (.oscHarm k) = 0x00001100 ||| k.zeroExtend 32 := by
  revert k
  decide

/-- The product with an integer is the integer multiple rounded once (R154). -/
theorem fmul_fofnat (d : Nat) (k : BitVec 8) {a : Word} (ha : isFinite a = true) :
    fmul d (fofnat k) a = pack (isNeg a) (roundMag (k.toNat * units a) 0) := by
  obtain ⟨hf, hs, hv⟩ := fofnat_exact k
  have hu : units (fofnat k) = 2 ^ 149 * k.toNat := by
    rw [← natAbs_value, hv, mul_comm]
    exact Int.natAbs_natCast (2 ^ 149 * k.toNat)
  rw [fmul_finite d hf ha, hs, Bool.false_bne, hu, mul_assoc]
  exact congrArg (pack _) (roundMag_scale _ 0 149)

theorem fmul_fofnat_roundsTo (d : Nat) (k : BitVec 8) {a : Word} (ha : isFinite a = true) :
    RoundsTo (k.toNat * value a) 0 (fmul d (fofnat k) a) := by
  rw [fmul_fofnat d k ha]
  apply roundsTo_pack
  unfold value
  split <;> simp

theorem fmul_fofnat_one (d : Nat) {a : Word} (ha : isFinite a = true) : fmul d (fofnat 1) a = a := by
  rw [fmul_fofnat d 1 ha, show (1 : BitVec 8).toNat = 1 from rfl, one_mul]
  simpa using pack_roundMag_units 0 ha

theorem fmul_fofnat_zero (d : Nat) {a : Word} (ha : isFinite a = true) (hs : isNeg a = false) :
    fmul d (fofnat 0) a = posZero := by
  rw [fmul_fofnat d 0 ha, show (0 : BitVec 8).toNat = 0 from rfl, zero_mul, roundMag_zero, hs]
  rfl

/-- Up to 24 bits a magnitude counts the units of the subnormal grid itself. -/
theorem magUnits_of_lt {m : Nat} (h : m < 2 ^ 24) : magUnits m = m := by
  simpa using magUnits_compose (t := 0) h.le (.inl rfl)

/-- Below exponent field 254 the double of a number of the format is one (R154). -/
theorem exists_double {m : Nat} (h : m < 254 * 2 ^ 23) : ∃ m', m' < infMag ∧ magUnits m' = 2 * magUnits m := by
  have hinf : infMag = 255 * 2 ^ 23 := by decide
  by_cases hm : 2 ^ 23 ≤ m
  · exact ⟨m + 2 ^ 23, by omega, by rw [magUnits_add_exponent hm, mul_comm, pow_one]⟩
  · exact ⟨2 * m, by omega, by rw [magUnits_of_lt (by omega), magUnits_of_lt (by omega)]⟩

/-- Twice a datum below `2^127` is exact (R154). -/
theorem fmul_fofnat_two (d : Nat) {a : Word} (h : expField a < 254) :
    isFinite (fmul d (fofnat 2) a) = true ∧ value (fmul d (fofnat 2) a) = 2 * value a := by
  have hmag : mag a < 254 * 2 ^ 23 := (Nat.div_lt_iff_lt_mul (by norm_num)).1 h
  have ha : isFinite a = true := (isFinite_iff a).2 (hmag.trans (by decide))
  obtain ⟨m, hm, hu⟩ := exists_double hmag
  have hm31 : m < 2 ^ 31 := hm.trans (by decide)
  have hround := roundMag_magUnits 0 hm
  rw [pow_zero, mul_one, hu] at hround
  rw [fmul_fofnat d 2 ha, show (2 : BitVec 8).toNat = 2 from rfl, units, hround, isFinite_iff, mag_pack _ hm31,
    value_pack _ hm31, hu]
  refine ⟨hm, ?_⟩
  unfold value units
  split <;> push_cast <;> ring

/-- A legal phase is far below `2^127`. -/
theorem PhaseLegal.expField_lt {w : Word} (h : PhaseLegal w) : expField w < 254 :=
  (Nat.div_lt_iff_lt_mul (by norm_num)).2 (h.mag_le.trans_lt (by norm_num))

/-- Twice a legal phase is exact (R157). -/
theorem realOf_double_phase (d : Nat) {p : Word} (hp : PhaseLegal p) :
    realOf (fmul d (fofnat 2) p) = 2 * realOf p := by
  rw [realOf, (fmul_fofnat_two d hp.expField_lt).2, realOf]
  push_cast
  ring

/-- Twice a legal phase is far inside the range of property S4 of the sine (R130). -/
theorem PhaseLegal.realOf_bounds {w : Word} (h : PhaseLegal w) : 0 ≤ realOf w ∧ realOf w ≤ 7 := by
  have hle : (units w : ℝ) ≤ 13176794 * 2 ^ 128 := by exact_mod_cast h.units_le
  rw [realOf, h.value_eq_units, Int.cast_natCast]
  exact ⟨by positivity, (div_le_iff₀ (by positivity)).2 (hle.trans (by norm_num))⟩

/-! ### The phase over the real numbers -/

/-- One advance over `N_real` takes off a multiple of `2π` and stays in `[0, 2π)` (R155). -/
theorem phaseAfter_exact (d : Nat) {p inc : ℝ} (hp : 0 ≤ p) (hp' : p < 2 * Real.pi) (hinc : 0 ≤ inc)
    (hinc' : inc < 2 * Real.pi) :
    (∃ k : ℤ, phaseAfter exact d p inc = p + inc - k * (2 * Real.pi)) ∧ 0 ≤ phaseAfter exact d p inc ∧
      phaseAfter exact d p inc < 2 * Real.pi := by
  simp only [phaseAfter, exact, decide_eq_true_eq]
  split
  next h => exact ⟨⟨1, by simp⟩, by linarith, by linarith⟩
  next h => exact ⟨⟨0, by simp⟩, by linarith, not_le.1 h⟩

@[simp] theorem oscAdv_iterate_phaseInc {F : Type} (N : Numerics F) (m : Datapath F) (n : Nat) :
    ((oscAdv N)^[n] m).phaseInc = m.phaseInc := by
  induction n with
  | zero => rfl
  | succ n ih => rw [Function.iterate_succ_apply', oscAdv_phaseInc, ih]

/-- `n` advances from phase 0 leave a number of `[0, 2π)` that is `n · inc` up to a multiple of `2π` (R159). -/
theorem oscAdv_iterate_exact {m : Datapath ℝ} (h0 : m.phase = 0) (hinc : 0 ≤ m.phaseInc)
    (hinc' : m.phaseInc < 2 * Real.pi) (n : Nat) :
    (∃ k : ℤ, ((oscAdv exact)^[n] m).phase = n * m.phaseInc - k * (2 * Real.pi)) ∧
      0 ≤ ((oscAdv exact)^[n] m).phase ∧ ((oscAdv exact)^[n] m).phase < 2 * Real.pi := by
  induction n with
  | zero => exact ⟨⟨0, by simp [h0]⟩, h0.ge, by simp [h0, Real.pi_pos]⟩
  | succ n ih =>
    obtain ⟨⟨k, hk⟩, hnonneg, hlt⟩ := ih
    obtain ⟨⟨j, hj⟩, hnonneg', hlt'⟩ :=
      phaseAfter_exact ((oscAdv exact)^[n] m).draws hnonneg hlt hinc hinc'
    rw [Function.iterate_succ_apply', oscAdv_phase, oscAdv_iterate_phaseInc]
    refine ⟨⟨k + j, ?_⟩, hnonneg', hlt'⟩
    rw [hj, hk]
    push_cast
    ring

/-- The representative of a number in `[0, c)` is the number less `c` times a floor. -/
theorem eq_sub_floor_mul {p x c : ℝ} {k : ℤ} (hc : 0 < c) (h : p = x - k * c) (h0 : 0 ≤ p) (h1 : p < c) :
    p = x - c * ⌊x / c⌋ := by
  have hk : ⌊x / c⌋ = k := by
    rw [Int.floor_eq_iff, le_div_iff₀ hc, div_lt_iff₀ hc]
    constructor <;> linarith
  rw [hk, h, mul_comm]

/-! ### The design increments -/

/-- A significand within one half of the scaled design increment of a 19 kHz pilot, by 20 decimals of π (R152). -/
theorem isNearest_phaseIncDesign {fs : ℝ} {t q s : Nat} (hq : 2 ^ 23 < q) (hq' : q < 2 ^ 24) (hs : t + s = 149)
    (hfs : 0 < fs) (hlo : ((q : ℝ) - 1 / 2) * fs < 2 * 3.14159265358979323846 * 19000 * 2 ^ s)
    (hhi : 2 * 3.14159265358979323847 * 19000 * 2 ^ s < ((q : ℝ) + 1 / 2) * fs) :
    IsNearest (phaseIncDesign 19000 fs) (pack false (t * 2 ^ 23 + q)) := by
  have hpow : (0 : ℝ) < 2 ^ s := by positivity
  have hpi := mul_lt_mul_of_pos_right Real.pi_gt_d20 hpow
  have hpi' := mul_lt_mul_of_pos_right Real.pi_lt_d20 hpow
  refine isNearest_of_significand hq hq' hs ?_
  rw [phaseIncDesign, div_mul_eq_mul_div, abs_sub_lt_iff, sub_lt_iff_lt_add, sub_lt_comm, div_lt_iff₀ hfs,
    lt_div_iff₀ hfs]
  constructor <;> linarith

/-! ## The statements of the family -/

/-- Settles O13: a running core stores no phase and no increment from the bus, reset puts `+0.0` in both, and each
operation keeps the range. -/
theorem runStepsKeepPhaseInRange : Obligations.RunStepsKeepPhaseInRange := by
  intro s t hr hs h
  rcases step_cases h with ⟨-, rfl⟩ | ⟨a, rest, -, rfl⟩ | ⟨rest, -, rfl⟩ | ⟨a, w, rest, -, hw⟩
  · exact hs
  · exact hs
  · exact ⟨phaseLegal_zero, phaseLegal_zero⟩
  · have ha : State.PhaseInRange { s with pending := rest, reply := .ack } := hs
    rcases hw with ⟨-, i, -, hi⟩ | ⟨f, rfl⟩ | ⟨r, rfl⟩ | ⟨hc, -⟩
    · exact exec_phaseInRange ha hi
    · exact ha
    · exact ha
    · exact absurd (hr.symm.trans hc) (by decide)

/-- Settles O10, from the product as one rounding of the integer multiple. -/
theorem oscHarmWritesSubcarrier : Obligations.OscHarmWritesSubcarrier := by
  intro s k a
  refine ⟨oscHarm_or_word k ▸ decode_encode (i := .oscHarm k) rfl, request_run, exec_config (i := .oscHarm k) rfl,
    ?_, ?_, ?_, fmul_fofnat_roundsTo _ k, fun hf => isNaN_fsin (isFinite_fmul_right _ hf)⟩
  · rintro rfl hf hs
    have ha : a = posZero := fmul_fofnat_zero _ hf hs
    rw [ha]
    exact ⟨rfl, fsin_zero (by decide)⟩
  · rintro rfl hf
    exact fmul_fofnat_one _ hf
  · rintro rfl hexp
    exact fmul_fofnat_two _ hexp

/-- Settles O11, from the two branches of the advance. -/
theorem oscAdvAdvancesPhase : Obligations.OscAdvAdvancesPhase := by
  refine ⟨decode_encode (i := .oscAdv) rfl, fun s => ?_⟩
  intro t p
  have hp : p = phaseAfter b32 s.dp.draws s.dp.phase s.dp.phaseInc := rfl
  refine ⟨request_run, exec_config (i := .oscAdv) rfl, fun ht => ?_, fun ht => ?_, fun hl hne hinc => ?_⟩
  · have hge : fge t c2pi = true := by
      rw [ht]
      exact (fge_iff _ _).2 ⟨by decide, by decide, le_refl _⟩
    rw [hp, phaseAfter_wrap hge]
    exact (congrArg (fsub _ · c2pi) ht).trans (fsub_c2pi_self _)
  · have hge : fge t c2pi = false := by
      rw [← Bool.not_eq_true, fge_iff, ht]
      exact fun h => Bool.noConfusion h.1
    rw [hp, phaseAfter_keep hge]
  · rw [hp, hinc]
    exact phaseAfter_posZero _ hl hne

/-- Settles O12: the sum of two legal values has at most 26 bits over `2^127`, and below 8 at most 25; what is taken off
it is exact. -/
theorem phaseStepErrorBounded : Obligations.PhaseStepErrorBounded := by
  intro d p inc hp hinc p'
  have hsum : value p + value inc < 2 ^ (24 + 129) := by
    have := hp.2.2
    have := hinc.2.2
    rw [value_c2pi] at *
    omega
  have herr := fadd_legal_error d hp hinc hsum
  have herr8 : value p + value inc < 8 * 2 ^ 149 → _ := fun h => fadd_legal_error d hp hinc (e := 128) (by omega)
  rcases phaseAfter_cases d hp hinc with ⟨hge, -, -, hv⟩ | ⟨hge, he, -⟩
  · refine ⟨1, .inr rfl, ?_⟩
    simp only [p', one_mul, hv, sub_sub_sub_cancel_right]
    exact ⟨by omega, fun h => by have := herr8 h; omega, fun _ => ⟨phaseAfter_wrap hge, trivial⟩⟩
  · refine ⟨0, .inl rfl, ?_⟩
    simp only [p', zero_mul, sub_zero, he]
    exact ⟨by omega, fun h => by have := herr8 h; omega, fun h => absurd (h.symm.trans hge) (by decide)⟩

/-- Settles O14, from the range of the phase and its congruence to `n · inc`. -/
theorem realPhaseClosedForm : Obligations.RealPhaseClosedForm := by
  intro m n h0 hinc hinc'
  obtain ⟨⟨k, hk⟩, hnonneg, hlt⟩ := oscAdv_iterate_exact h0 hinc hinc' n
  exact ⟨eq_sub_floor_mul Real.two_pi_pos hk hnonneg hlt, hnonneg, hlt⟩

/-- Settles O16: `OSC.SIN` leaves the phase, whose double is exact and in the range where the sine is accurate. -/
theorem phaseLock : Obligations.PhaseLock := by
  refine ⟨fun s eps heps hr hp => ?_, fun m => ⟨by simp [exact], by simp [exact]⟩⟩
  have hdouble := realOf_double_phase s.dp.draws hp
  obtain ⟨hlo, hhi⟩ := hp.realOf_bounds
  have hsine := heps (fmul s.dp.draws (fofnat 2) s.dp.phase) (fmul_fofnat_two _ hp.expField_lt).1
    (by rw [hdouble]; linarith) (by rw [hdouble]; linarith)
  rw [hdouble] at hsine
  exact ⟨_, _, request_run hr, request_run (op := oscHarm b32 2) hr, by simp, by simp, by simp, hdouble,
    by simpa using hsine⟩

/-- Settles O56: each pattern's significand is within one half of the scaled quotient. -/
theorem defaultIncrementsAreNearest : Obligations.DefaultIncrementsAreNearest := by
  have e192 : (0x3F1F2C8D : Word) = pack false (125 * 2 ^ 23 + 10431629) := by decide
  have e96 : (0x3F9F2C8D : Word) = pack false (126 * 2 ^ 23 + 10431629) := by decide
  have e48 : (0x401F2C8D : Word) = pack false (127 * 2 ^ 23 + 10431629) := by decide
  have e44 : (0x402D402A : Word) = pack false (127 * 2 ^ 23 + 11354154) := by decide
  have e384 : (0x3E9F2C8D : Word) = pack false (124 * 2 ^ 23 + 10431629) := by decide
  rw [Obligations.DefaultIncrementsAreNearest, e192, e96, e48, e44, e384]
  refine ⟨by decide, ?_, ?_, ?_, ?_, ?_⟩
  · exact isNearest_phaseIncDesign (s := 24) (by norm_num) (by norm_num) rfl (by norm_num) (by norm_num) (by norm_num)
  · exact isNearest_phaseIncDesign (s := 23) (by norm_num) (by norm_num) rfl (by norm_num) (by norm_num) (by norm_num)
  · exact isNearest_phaseIncDesign (s := 22) (by norm_num) (by norm_num) rfl (by norm_num) (by norm_num) (by norm_num)
  · exact isNearest_phaseIncDesign (s := 22) (by norm_num) (by norm_num) rfl (by norm_num) (by norm_num) (by norm_num)
  · exact isNearest_phaseIncDesign (s := 25) (by norm_num) (by norm_num) rfl (by norm_num) (by norm_num) (by norm_num)

/-- Settles O9: the phase is read and stays, so the second `OSC.SIN` takes the same sine. -/
theorem oscSinWritesPilot : Obligations.OscSinWritesPilot := by
  refine ⟨decode_encode (i := .oscSin) rfl, fun s => ⟨request_run, exec_config (i := .oscSin) rfl, fun hr => ?_⟩⟩
  refine ⟨_, request_run hr, ⟨_, request_run (op := oscSin b32) hr, ?_⟩, fun h0 => ?_, fun hf => ?_⟩
  · simp
  · simpa [h0] using fsin_zero (a := 0x00000000) (by decide)
  · simpa using isNaN_fsin hf

end Sys2Proof.Machine
end

section
/-! The Biquad engine (R170 to R177): the recurrence as an instruction, a poisoned history, two instances that commute,
the identity coefficients; then the statements of the family. -/

namespace Sys2Proof.Machine

open B32

variable {F : Type}

/-! ### `BQ.PROC` as an instruction -/

/-- The word of `BQ.PROC i` as its pattern with `i` filled in (R95). -/
theorem bqProc_or_word (i : BqInst) :
    encode (.bqProc (BitVec.ofNat 8 (instNumber i))) = 0x00002000 ||| BitVec.ofNat 32 (instNumber i) := by
  cases i <;> decide

theorem wellFormed_bqProc (i : BqInst) : (Instr.bqProc (BitVec.ofNat 8 (instNumber i))).wellFormed = true := by
  cases i <;> decide

theorem exec_bqProc_run (i : BqInst) {s : State} (hr : s.ctrl.run = true) :
    exec (.bqProc (BitVec.ofNat 8 (instNumber i))) s = .next (operate (bqProc b32 i) s) :=
  (exec_bqProc i s).trans (request_run hr)

/-- The state after `BQ.PROC i` in either phase (R94). -/
theorem exec_bqProc_next {i : BqInst} {s t : State} (h : exec (.bqProc (BitVec.ofNat 8 (instNumber i))) s = .next t) :
    t = if s.ctrl.run then operate (bqProc b32 i) s else refuse .errNrun s := by
  rw [exec_bqProc] at h
  cases hr : s.ctrl.run
  · exact (Host.Outcome.next.inj ((request_config hr).symm.trans h)).symm
  · exact (Host.Outcome.next.inj ((request_run hr).symm.trans h)).symm

/-- The new `Y1` is the output (R171). -/
theorem bqProc_y1 (N : Numerics F) (i : BqInst) (m : Datapath F) :
    ((bqProc N i m).bq.get i).y1 = (bqProc N i m).v.get (bqDest i) := by
  rw [bqProc_bq_same, bqProc_v_dest, bqShift]

/-- R171 over the real numbers is the second-order recurrence. -/
theorem bqOutput_exact (d : Nat) (b : Biquad ℝ) (x : ℝ) :
    bqOutput exact d b x = b.b0 * x + b.b1 * b.x1 + b.b2 * b.x2 - b.a1 * b.y1 - b.a2 * b.y2 := rfl

/-! ### A poisoned history -/

/-- A property that every sum and difference takes over from either operand, and every product from its second one,
passes from any history value to the output. -/
theorem bqOutput_of_history {P : Word → Prop} (hadd : ∀ d a b, P a ∨ P b → P (fadd d a b))
    (hsub : ∀ d a b, P a ∨ P b → P (fsub d a b)) (hmul : ∀ d a b, P b → P (fmul d a b)) (d : Nat) {b : Biquad Word}
    (x : Word) (h : P b.x1 ∨ P b.x2 ∨ P b.y1 ∨ P b.y2) : P (bqOutput b32 d b x) := by
  rcases h with hx1 | hx2 | hy1 | hy2
  · exact hsub _ _ _ (.inl (hsub _ _ _ (.inl (hadd _ _ _ (.inl (hadd _ _ _ (.inr (hmul _ _ _ hx1))))))))
  · exact hsub _ _ _ (.inl (hsub _ _ _ (.inl (hadd _ _ _ (.inr (hmul _ _ _ hx2))))))
  · exact hsub _ _ _ (.inl (hsub _ _ _ (.inr (hmul _ _ _ hy1))))
  · exact hsub _ _ _ (.inr (hmul _ _ _ hy2))

/-- A NaN in the history makes the output a NaN (R175 (d)). -/
theorem isNaN_bqOutput (d : Nat) {b : Biquad Word} (x : Word)
    (h : isNaN b.x1 = true ∨ isNaN b.x2 = true ∨ isNaN b.y1 = true ∨ isNaN b.y2 = true) :
    isNaN (bqOutput b32 d b x) = true :=
  bqOutput_of_history (P := (isNaN · = true)) (fun d _ _ => isNaN_fadd d) (fun d _ _ => isNaN_fsub d)
    (fun d _ _ h => isNaN_fmul d (.inr h)) d x h

/-- An infinity or a NaN in the history makes the output one of them (R175 (d)). -/
theorem isFinite_bqOutput (d : Nat) {b : Biquad Word} (x : Word) (h : ¬ FiniteHistory b) :
    isFinite (bqOutput b32 d b x) = false :=
  bqOutput_of_history (P := (isFinite · = false))
    (fun d _ _ h => h.elim (isFinite_fadd_left d) (isFinite_fadd_right d))
    (fun d _ _ h => h.elim (isFinite_fsub_left d) (isFinite_fsub_right d)) (fun d _ _ => isFinite_fmul_right d) d x
    (by simpa only [FiniteHistory, not_and_or, Bool.not_eq_true] using h)

/-! ### Two instances one after the other -/

theorem Biquads.set_comm (q : Biquads F) {i j : BqInst} (hij : i ≠ j) (b c : Biquad F) :
    (q.set i b).set j c = (q.set j c).set i b := by
  cases i <;> cases j <;> first | rfl | exact absurd rfl hij

theorem Values.set_comm (v : Values F) {r q : VReg} (hrq : r ≠ q) (x y : F) :
    (v.set r x).set q y = (v.set q y).set r x := by
  cases r <;> cases q <;> first | rfl | exact absurd rfl hrq

theorem bqDest_injective {i j : BqInst} (h : bqDest i = bqDest j) : i = j := by
  revert h
  cases i <;> cases j <;> decide

/-- The second of two different instances finds its registers and its input as they were, if the first one does not
deliver that input. -/
theorem bqProc_bqProc (N : Numerics F) {i j : BqInst} (hij : j ≠ i) (hsrc : bqSource j ≠ bqDest i) (m : Datapath F) :
    bqProc N j (bqProc N i m) =
      let x := m.v.get (bqSource i)
      let y := bqOutput N m.draws (m.bq.get i) x
      let x' := m.v.get (bqSource j)
      let y' := bqOutput N (m.draws + 9) (m.bq.get j) x'
      { m with
        bq := (m.bq.set i (bqShift (m.bq.get i) x y)).set j (bqShift (m.bq.get j) x' y')
        v := (m.v.set (bqDest i) y).set (bqDest j) y'
        draws := m.draws + 18 } := by
  rw [bqProc, bqProc_bq_ne N i m hij, bqProc_v_ne N i m hsrc, bqProc_draws]
  rfl

/-- Two instances that do not feed each other commute, unless an output is a NaN (R173, R128). -/
theorem bqProc_comm {i j : BqInst} (hij : i ≠ j) (hi : bqSource i ≠ bqDest j) (hj : bqSource j ≠ bqDest i)
    {m : Datapath Word} (hyi : isNaN (bqOutput b32 m.draws (m.bq.get i) (m.v.get (bqSource i))) = false)
    (hyj : isNaN (bqOutput b32 m.draws (m.bq.get j) (m.v.get (bqSource j))) = false) :
    bqProc b32 j (bqProc b32 i m) = bqProc b32 i (bqProc b32 j m) := by
  rw [bqProc_bqProc b32 hij.symm hj, bqProc_bqProc b32 hij hi]
  dsimp only
  rw [bqOutput_draw (m.draws + 9) hyi, bqOutput_draw (m.draws + 9) hyj, Biquads.set_comm _ hij,
    Values.set_comm _ (mt bqDest_injective hij)]

/-- The two channels of a filter do not feed each other (R172). -/
theorem channels_apart {i j : BqInst} (h : (i = .preemphL ∧ j = .preemphR) ∨ (i = .lowpassL ∧ j = .lowpassR)) :
    i ≠ j ∧ bqSource i ≠ bqDest j ∧ bqSource j ≠ bqDest i := by
  rcases h with ⟨rfl, rfl⟩ | ⟨rfl, rfl⟩ <;> decide

/-! ### Identity coefficients -/

/-- The identity coefficients of R175 (c). -/
def IdentityCoefs (b : Biquad Word) : Prop := SameCoefs b { Biquad.const posZero with b0 := 0x3F800000 }

/-- The product of 1 and a finite datum is the datum. -/
theorem fmul_one_left (d : Nat) {a : Word} (ha : isFinite a = true) : fmul d 0x3F800000 a = a := by
  rw [fmul_finite d (by decide) ha, show isNeg 0x3F800000 = false by decide, Bool.false_bne,
    show units 0x3F800000 = 2 ^ 149 by decide, mul_comm, pack_roundMag_units 149 ha]

/-- The product of `+0.0` and a zero is the zero. -/
theorem fmul_posZero_zero (d : Nat) {a : Word} (ha : isZero a = true) : fmul d posZero a = a := by
  have hf := isFinite_of_zero ha
  rw [eq_of_isZero (isZero_fmul_posZero d hf), isNeg_fmul_posZero d hf, ← eq_of_isZero ha]

/-- A finite non-zero input passes the four sums of R171 unchanged: the other four products are zeros. -/
theorem bqOutput_identity (d : Nat) {b : Biquad Word} {x : Word} (hb : IdentityCoefs b) (hx : isFinite x = true)
    (hh : FiniteHistory b) (hz : isZero x = false) : bqOutput b32 d b x = x := by
  obtain ⟨h0, h1, h2, h3, h4⟩ := hb
  obtain ⟨hx1, hx2, hy1, hy2⟩ := hh
  simp only [Biquad.const] at h0 h1 h2 h3 h4
  simp only [bqOutput, b32_fadd, b32_fsub, b32_fmul, h0, h1, h2, h3, h4]
  rw [fmul_one_left d hx, fadd_zero_right _ hx hz (isZero_fmul_posZero _ hx1),
    fadd_zero_right _ hx hz (isZero_fmul_posZero _ hx2), fsub_zero_right _ hx hz (isZero_fmul_posZero _ hy1),
    fsub_zero_right _ hx hz (isZero_fmul_posZero _ hy2)]

/-- A zero input times 1 is the same zero as times `+0.0`, so the identity coefficients then work as zero coefficients. -/
theorem bqOutput_identity_zero (d : Nat) {b : Biquad Word} {x : Word} (hb : IdentityCoefs b) (hz : isZero x = true) :
    bqOutput b32 d b x = bqOutput b32 d { b with b0 := posZero } x := by
  have hp : fmul d b.b0 x = fmul d posZero x := by
    rw [hb.1, fmul_one_left d (isFinite_of_zero hz), fmul_posZero_zero d hz]
  simp only [bqOutput, b32_fmul, hp]

/-! ## The statements of the family -/

/-- Settles O17, from the recurrence of `bqOutput` for each of the four instances. -/
theorem bqProcFollowsRecurrence : Obligations.BqProcFollowsRecurrence := by
  refine ⟨fun i => ?_, fun s i => ⟨fun hr => ?_, fun hr => ?_⟩, fun s arg h => exec_bqProc_illegal h s, bqOutput_exact⟩
  · rw [← bqProc_or_word]
    exact decode_encode (wellFormed_bqProc i)
  · rw [exec_bqProc_run i hr]
    cases i <;> rfl
  · exact exec_config (wellFormed_bqProc i) hr

/-- Settles O18: a draw decides neither whether the output is a NaN nor an output that is none. -/
theorem instancesAreIndependent : Obligations.InstancesAreIndependent := by
  intro s s' i hr hr' hb hx
  refine ⟨_, _, exec_bqProc_run i hr, exec_bqProc_run i hr', ?_, fun hn => ?_, fun j hj => bqProc_bq_ne b32 i s.dp hj⟩
  · rw [operate_dp, operate_dp, bqProc_v_dest, bqProc_v_dest, hb, hx]
    exact isNaN_bqOutput_draw _ _ _ _
  · simp only [operate_dp, bqProc_v_dest, bqProc_bq_same, hb, hx] at hn ⊢
    rw [bqOutput_draw s'.dp.draws hn]
    exact ⟨rfl, rfl⟩

/-- Settles O19: in the CONFIG phase both orders raise one flag twice; in the RUN phase the datapath steps commute. -/
theorem channelsCommute : Obligations.ChannelsCommute := by
  intro i j s a b c d hpair ha hb hc hd hni hnj
  obtain ⟨hij, hi, hj⟩ := channels_apart hpair
  obtain rfl := exec_bqProc_next ha
  obtain rfl := exec_bqProc_next hb
  obtain rfl := exec_bqProc_next hc
  obtain rfl := exec_bqProc_next hd
  cases hr : s.ctrl.run
  · simp [hr]
  · simp only [hr, if_true, operate_ctrl, operate_dp] at hni hnj ⊢
    rw [bqProc_v_ne _ _ _ (mt bqDest_injective hij), bqProc_v_dest] at hni
    rw [bqProc_v_dest, bqProc_bq_ne _ _ _ hij.symm, bqProc_v_ne _ _ _ hj, isNaN_bqOutput_draw _ s.dp.draws] at hnj
    simp only [operate, setBusy, bqProc_comm hij hi hj hni hnj]

/-- Settles O20: the new `Y1` is the output, and the output takes over what is not finite in the history. -/
theorem nonFiniteHistoryPoisons : Obligations.NonFiniteHistoryPoisons := by
  intro s i hr
  refine ⟨_, exec_bqProc_run i hr, ?_⟩
  rw [operate_dp, bqProc_y1, and_self, and_self, bqProc_v_dest]
  exact ⟨fun h => isNaN_bqOutput _ _ (by simpa [or_assoc] using h), isFinite_bqOutput _ _⟩

/-- Refutes O22: with zero coefficients, the input −1.0 for the third time and two zero outputs before it give `−0.0`. -/
theorem not_zeroCoefficientsGivePlusZero : ¬ Obligations.ZeroCoefficientsGivePlusZero := by
  intro h
  obtain ⟨s, hr, hb, hx, hh, hneg⟩ : ∃ s : State, s.ctrl.run = true ∧
      SameCoefs (s.dp.bq.get .preemphL) (.const 0x00000000) ∧ isFinite (s.dp.v.get .leftRaw) = true ∧
      FiniteHistory (s.dp.bq.get .preemphL) ∧
      let b := s.dp.bq.get .preemphL
      (isNeg (s.dp.v.get .leftRaw) && isNeg b.x1 && isNeg b.x2 && !isNeg b.y1 && !isNeg b.y2) = true :=
    ⟨{ State.reset with
        ctrl.run := true
        dp.v.leftRaw := 0xBF800000
        dp.bq.preemphL.x1 := 0xBF800000
        dp.bq.preemphL.x2 := 0xBF800000 },
      rfl, .refl (.const 0x00000000), by decide, by unfold FiniteHistory; decide, by decide⟩
  obtain ⟨t, ht, hplus⟩ := h s .preemphL hr hb hx hh
  obtain ⟨t', ht', -, hsign⟩ := zeroCoefficientsGiveZero.1 s .preemphL hr hb hx hh
  obtain rfl : t = t' := Host.Outcome.next.inj (ht.symm.trans ht')
  rw [hplus] at hsign
  exact absurd (hsign.trans (if_pos hneg)) (by decide)

/-- Settles O23: a zero input leaves the case of zero coefficients. -/
theorem identityCoefficientsDeliverInput : Obligations.IdentityCoefficientsDeliverInput := by
  intro s i hr hb hx hh
  refine ⟨_, exec_bqProc_run i hr, ?_⟩
  rw [operate_dp, bqProc_v_dest]
  cases hz : isZero (s.dp.v.get (bqSource i))
  · exact bqOutput_identity _ hb hx hh hz
  · have hc : SameCoefs { s.dp.bq.get i with b0 := posZero } (.const posZero) := ⟨rfl, hb.2⟩
    obtain ⟨hy, hs⟩ := bqOutput_zeroCoefs s.dp.draws hc hx hh
    rw [bqOutput_identity_zero _ hb hz, if_neg (by simp), ← hs]
    exact eq_of_isZero hy

end Sys2Proof.Machine
end

section
/-! The filter design (R185 to R194): the poles of a section from its two feedback coefficients, the lowpass design, the
magnitude response of the literal preemphasis set; then the statements of the family. -/

namespace Sys2Proof.Machine

/-! ### The poles of a second-order section -/

section Poles

variable {a1 a2 : ℝ} {z : ℂ}

/-- A pole is a real root, or one of a pair of conjugates, whose product is the constant coefficient. -/
theorem pole_real_or_conjugate (hz : z ^ 2 + a1 * z + a2 = 0) :
    (z.im = 0 ∧ z.re ^ 2 + a1 * z.re + a2 = 0) ∨ ‖z‖ ^ 2 = a2 := by
  have hre : z.re * z.re - z.im * z.im + a1 * z.re + a2 = 0 := by
    simpa [pow_two] using congrArg Complex.re hz
  have him : z.re * z.im + z.im * z.re + a1 * z.im = 0 := by
    simpa [pow_two] using congrArg Complex.im hz
  obtain h | h : z.im = 0 ∨ 2 * z.re + a1 = 0 := mul_eq_zero.mp (by linear_combination him)
  · exact .inl ⟨h, by linear_combination hre + z.im * h⟩
  · exact .inr (by rw [Complex.sq_norm, Complex.normSq_apply]; linear_combination z.re * h - hre)

/-- The polynomial at `x` beyond `±1` is its positive value at `±1` and a product of two factors of one sign. -/
theorem StableFeedback.abs_root_lt_one (h : StableFeedback a1 a2) {x : ℝ} (hx : x ^ 2 + a1 * x + a2 = 0) : |x| < 1 := by
  have ha2 : a2 < 1 := (abs_lt.mp h.1).2
  obtain ⟨hl, hr⟩ := abs_lt.mp h.2
  by_contra! hge
  obtain hge | hge := le_abs'.mp hge
  · have : 0 ≤ (x + 1) * (x - 1 + a1) := mul_nonneg_of_nonpos_of_nonpos (by linarith) (by linarith)
    linarith
  · have : 0 ≤ (x - 1) * (x + 1 + a1) := mul_nonneg (by linarith) (by linarith)
    linarith

/-- R187, R190: the two inequalities put both poles inside the unit circle. -/
theorem StableFeedback.norm_pole_lt_one (h : StableFeedback a1 a2) (hz : z ^ 2 + a1 * z + a2 = 0) : ‖z‖ < 1 := by
  obtain ⟨him, hre⟩ | hsq := pole_real_or_conjugate hz
  · rw [← Complex.abs_re_eq_norm.mpr him]
    exact h.abs_root_lt_one hre
  · rw [← sq_lt_one_iff₀ (norm_nonneg z), hsq]
    exact (abs_lt.mp h.1).2

theorem norm_pole_of_discrim_neg (h : discrim 1 a1 a2 < 0) (hz : z ^ 2 + a1 * z + a2 = 0) : ‖z‖ = Real.sqrt a2 := by
  obtain ⟨-, hre⟩ | hsq := pole_real_or_conjugate hz
  · have hd : discrim 1 a1 a2 = (2 * 1 * z.re + a1) ^ 2 :=
      discrim_eq_sq_of_quadratic_eq_zero (by linear_combination hre)
    exact absurd h (hd ▸ sq_nonneg _).not_gt
  · rw [← hsq, Real.sqrt_sq (norm_nonneg z)]

end Poles

/-! ### The lowpass design (R190) -/

section Lowpass

variable {fs fc q : ℝ} (hfc : 0 < fc) (hfs : fc < fs / 2)
include hfc hfs

theorem lowpass_angle_mem : 2 * Real.pi * fc / fs ∈ Set.Ioo 0 Real.pi := by
  have hpos : 0 < fs := by linarith
  refine ⟨by positivity, ?_⟩
  rw [div_lt_iff₀ hpos]
  nlinarith [Real.pi_pos]

theorem lowpass_sin_pos : 0 < Real.sin (2 * Real.pi * fc / fs) :=
  Real.sin_pos_of_mem_Ioo (lowpass_angle_mem hfc hfs)

theorem lowpass_abs_cos_lt_one : |Real.cos (2 * Real.pi * fc / fs)| < 1 := by
  rw [← sq_lt_one_iff_abs_lt_one, Real.cos_sq']
  linarith [pow_pos (lowpass_sin_pos hfc hfs) 2]

variable (hq : 0 < q)
include hq

theorem lowpass_alpha_pos : 0 < Real.sin (2 * Real.pi * fc / fs) / (2 * q) :=
  div_pos (lowpass_sin_pos hfc hfs) (by positivity)

/-- Before the division by `a0 = 1 + alpha` the two inequalities are `|1 − alpha| < 1 + alpha` and `2·|cos w0| < 2`. -/
theorem lowpassDesign_stable : StableFeedback (lowpassDesign fs fc q).a1 (lowpassDesign fs fc q).a2 := by
  have ha := lowpass_alpha_pos hfc hfs hq
  obtain ⟨hl, hr⟩ := abs_lt.mp (lowpass_abs_cos_lt_one hfc hfs)
  unfold lowpassDesign StableFeedback
  dsimp only
  generalize Real.sin (2 * Real.pi * fc / fs) / (2 * q) = alpha at ha ⊢
  have h0 : 0 < 1 + alpha := by linarith
  have hsum : 1 + (1 - alpha) / (1 + alpha) = 2 / (1 + alpha) := by field_simp; ring
  rw [hsum, abs_div, abs_div, abs_of_pos h0, div_lt_one h0, div_lt_div_iff_of_pos_right h0, abs_lt, abs_lt]
  exact ⟨⟨by linarith, by linarith⟩, by linarith, by linarith⟩

/-- Above `Q_LP = 1/2`, `alpha` is less than `sin w0`, and the poles are not real. -/
theorem lowpassDesign_discrim_neg (h : 1 / 2 < q) :
    discrim 1 (lowpassDesign fs fc q).a1 (lowpassDesign fs fc q).a2 < 0 := by
  have hs := lowpass_sin_pos hfc hfs
  have ha := lowpass_alpha_pos hfc hfs hq
  have hlt : Real.sin (2 * Real.pi * fc / fs) / (2 * q) < Real.sin (2 * Real.pi * fc / fs) :=
    div_lt_self hs (by linarith)
  unfold lowpassDesign discrim
  dsimp only
  generalize Real.sin (2 * Real.pi * fc / fs) / (2 * q) = alpha at ha hlt ⊢
  have h0 : 0 < 1 + alpha := by linarith
  calc (-2 * Real.cos (2 * Real.pi * fc / fs) / (1 + alpha)) ^ 2 - 4 * 1 * ((1 - alpha) / (1 + alpha))
      = 4 * (alpha ^ 2 - Real.sin (2 * Real.pi * fc / fs) ^ 2) / (1 + alpha) ^ 2 := by
        rw [Real.sin_sq]; field_simp; ring
    _ < 0 := div_neg_of_neg_of_pos (by nlinarith) (by positivity)

/-- Numerator and denominator at `z = 1` are the same number. -/
theorem lowpassDesign_sum_eq :
    (lowpassDesign fs fc q).b0 + (lowpassDesign fs fc q).b1 + (lowpassDesign fs fc q).b2 =
      1 + (lowpassDesign fs fc q).a1 + (lowpassDesign fs fc q).a2 := by
  have ha := lowpass_alpha_pos hfc hfs hq
  unfold lowpassDesign
  dsimp only
  generalize Real.sin (2 * Real.pi * fc / fs) / (2 * q) = alpha at ha ⊢
  have h0 : 1 + alpha ≠ 0 := by linarith
  field_simp
  ring

end Lowpass

/-- R190: the numerator is `b0·(1 + z⁻¹)²`. -/
theorem lowpassDesign_numerator (fs fc q : ℝ) :
    (lowpassDesign fs fc q).b1 = 2 * (lowpassDesign fs fc q).b0 ∧
      (lowpassDesign fs fc q).b2 = (lowpassDesign fs fc q).b0 := by
  refine ⟨?_, rfl⟩
  unfold lowpassDesign
  ring

/-! ### The literal preemphasis set (R188) -/

/-- The numerator gives `2·(1 + cos w) + 2·K²·(1 − cos w)`, the denominator `2·(1 + cos w)`. -/
theorem gainSq_literalPreemphasis (tau fs : ℝ) {w : ℝ} (hw : 1 + Real.cos w ≠ 0) :
    gainSq (literalPreemphasis tau fs) w = 1 + (2 * fs * tau) ^ 2 * (2 / (1 + Real.cos w) - 1) := by
  simp only [gainSq, literalPreemphasis, zero_mul, add_zero, one_mul, mul_pow, Real.sin_sq]
  have hden : (1 + Real.cos w) ^ 2 + (1 - Real.cos w ^ 2) ≠ 0 := by
    rw [show (1 + Real.cos w) ^ 2 + (1 - Real.cos w ^ 2) = 2 * (1 + Real.cos w) by ring]
    exact mul_ne_zero two_ne_zero hw
  field_simp
  ring

theorem one_add_cos_pos {w : ℝ} (hw : w ∈ Set.Ioo 0 Real.pi) : 0 < 1 + Real.cos w := by
  have := Real.strictAntiOn_cos ⟨hw.1.le, hw.2.le⟩ ⟨Real.pi_pos.le, le_rfl⟩ hw.2
  rw [Real.cos_pi] at this
  linarith

/-- The response rises over the whole range, below the corner also. -/
theorem strictMonoOn_gainSq_literalPreemphasis {tau fs : ℝ} (htau : 0 < tau) (hfs : 0 < fs) :
    StrictMonoOn (gainSq (literalPreemphasis tau fs)) (Set.Ioo 0 Real.pi) := by
  intro v hv w hw hvw
  have hv' := one_add_cos_pos hv
  have hw' := one_add_cos_pos hw
  have hcos : Real.cos w < Real.cos v := Real.strictAntiOn_cos ⟨hv.1.le, hv.2.le⟩ ⟨hw.1.le, hw.2.le⟩ hvw
  rw [gainSq_literalPreemphasis tau fs hv'.ne', gainSq_literalPreemphasis tau fs hw'.ne']
  gcongr

/-! ## The statements of the family -/

/-- Settles O57: numerator and denominator agree at zero frequency, and the feedback coefficients are stable. -/
theorem lowpassDesignUnitGain : Obligations.LowpassDesignUnitGain := by
  intro fs fc q hfc hfs hq
  have hstable := lowpassDesign_stable hfc hfs hq
  have hden : 1 + (lowpassDesign fs fc q).a1 + (lowpassDesign fs fc q).a2 ≠ 0 := by
    linarith [(abs_lt.mp hstable.2).1]
  obtain ⟨hb1, hb2⟩ := lowpassDesign_numerator fs fc q
  refine ⟨hden, ?_, hb1, hb2, fun z hz => ⟨hstable.norm_pole_lt_one hz, fun h => ?_⟩⟩
  · rw [lowpassDesign_sum_eq hfc hfs hq, div_self hden]
  · exact norm_pole_of_discrim_neg (lowpassDesign_discrim_neg hfc hfs hq h) hz

/-- Settles O58: the analog function is `1 + s·τ` (PC2 with `g = p = 1`, `r = 0`), and `a1 = 1` is not below 1. -/
theorem literalPreemphasisFailsOnlyStability : Obligations.LiteralPreemphasisFailsOnlyStability := by
  intro tau fs htau hfs
  refine ⟨⟨rfl, rfl⟩, ⟨1, 1, 0, by simp [literalPreemphasis]⟩, ⟨?_, ?_⟩, ?_⟩
  · simp only [literalPreemphasis]
    ring
  · exact (strictMonoOn_gainSq_literalPreemphasis htau hfs).mono (Set.Ioo_subset_Ioo_left (by positivity))
  · simp [PreStable, literalPreemphasis]

end Sys2Proof.Machine
end

section
/-! The Stereo encoder and `SAMPLE` (R200 to R210): the corner cases of the sums, equal channels through the filters, a
run of requested operations, and the value registers that `SAMPLE` reads; then the statements of the family. -/

namespace Sys2Proof.Machine

open B32

variable {F : Type}

/-! ### Corner cases of the arithmetic -/

/-- Half of a datum with an exponent field of at least 2 is exact (R124). -/
theorem value_fhalf (d : Nat) {a : Word} (h2 : 2 ≤ expField a) (ha : isFinite a = true) :
    2 * value (fhalf d a) = value a := by
  have hlo : 2 * 2 ^ 23 ≤ mag a := (Nat.le_div_iff_mul_le (by norm_num)).1 h2
  have hfin := (isFinite_iff a).1 ha
  obtain ⟨m, hm⟩ := Nat.exists_eq_add_of_le' (show 2 ^ 23 ≤ mag a by omega)
  have hu : units a = magUnits m * 2 ^ 1 := by rw [units, hm, magUnits_add_exponent (by omega)]
  rw [fhalf_finite d ha, hu, roundMag_magUnits 1 (by omega), value_pack _ (by have := mag_lt a; omega), value, hu]
  split <;> push_cast <;> ring

theorem fneg_fneg (a : Word) : fneg (fneg a) = a := ext_mag (by simp) (by simp)

/-- A datum and its opposite add up to `+0.0` (R123). -/
theorem fadd_fneg_left (d : Nat) {a : Word} (ha : isFinite a = true) : fadd d (fneg a) a = posZero := by
  rw [fadd_finite d (by rwa [isFinite_fneg]) ha, addFinite_zero (by rw [value_fneg, neg_add_cancel]), isNeg_fneg,
    Bool.not_and_self, if_neg (by decide)]

/-- A datum less itself is `+0.0` (R123). -/
theorem fsub_self (d : Nat) {a : Word} (ha : isFinite a = true) : fsub d a a = posZero := by
  have h := fadd_fneg_left d (a := fneg a) (by rwa [isFinite_fneg])
  rwa [fneg_fneg, ← fsub_eq] at h

/-- Equal finite channels leave `+0.0` on the difference signal (R202). -/
theorem fhalf_fsub_self (d d' : Nat) {a : Word} (ha : isFinite a = true) : fhalf d (fsub d' a a) = posZero := by
  rw [fsub_self d' ha, fhalf_zero d (by decide)]

/-- The sum of two largest numbers overflows (R123). -/
theorem fadd_largest (d : Nat) : fadd d 0x7F7FFFFF 0x7F7FFFFF = 0x7F800000 := by
  rw [fadd_finite d (by decide) (by decide)]
  decide

/-- Adding a zero changes no datum but `−0.0` and the NaNs (R123, R128). -/
theorem fadd_zero_right_of_ne (d : Nat) {a b : Word} (ha : isNaN a = false) (hne : a ≠ negZero)
    (hb : isZero b = true) : fadd d a b = a := by
  cases hi : isInf a
  · have hf := isFinite_of_not ha hi
    cases hz : isZero a
    · exact fadd_zero_right d hf hz hb
    · have hs : isNeg a = false := by
        by_contra h
        exact hne ((eq_of_isZero hz).trans (if_pos (Bool.not_eq_false _ ▸ h)))
      rw [fadd_zeros d hz hb, hs, Bool.false_and, eq_of_isZero hz, hs]
  · exact (fadd_inf_finite d hi (isFinite_of_zero hb)).1

/-- A NaN operand of the stereo mix makes the composite a NaN (R203, R128). -/
theorem isNaN_stereoMix (d : Nat) {v : Values Word}
    (h : isNaN v.mono = true ∨ isNaN v.pilot = true ∨ isNaN v.diff = true ∨ isNaN v.subcarrier = true) :
    isNaN (stereoMix b32 d v) = true := by
  rcases h with h | h | h
  · exact isNaN_fadd _ (.inl (isNaN_fadd _ (.inl (isNaN_fmul _ (.inl h)))))
  · exact isNaN_fadd _ (.inl (isNaN_fadd _ (.inr (isNaN_fmul _ (.inl h)))))
  · exact isNaN_fadd _ (.inr (isNaN_fmul _ (.inl (isNaN_fmul _ h))))

/-! ### Equal channels -/

/-- An input that is not finite makes the output of a biquad not finite. -/
theorem isFinite_bqOutput_input (d : Nat) (b : Biquad Word) {x : Word} (h : isFinite x = false) :
    isFinite (bqOutput b32 d b x) = false :=
  isFinite_fsub_left _ (isFinite_fsub_left _ (isFinite_fadd_left _ (isFinite_fadd_left _ (isFinite_fmul_right _ h))))

/-- After `SAMPLE` the destination of each biquad holds its output for what its source holds (R171, R207). -/
theorem sample_v_dest (N : Numerics F) (c : Ctrl) (m : Datapath F) (i : BqInst) :
    ∃ d, (sample N c m).v.get (bqDest i) = bqOutput N d (m.bq.get i) ((sample N c m).v.get (bqSource i)) := by
  rw [sample_v_ne N c m (r := bqSource i) (by cases i <;> decide),
    sample_v_ne N c m (r := bqDest i) (by cases i <;> decide)]
  cases i <;> simp (disch := decide) only [filters, bqProc_bq_ne, bqProc_v_ne, bqProc_v_dest] <;> exact ⟨_, rfl⟩

/-- Two biquads with the same registers and the same input end `SAMPLE` with the same output and the same registers,
unless that output is a NaN (R173, R174). -/
theorem sample_biquads_eq (c : Ctrl) {m : Datapath Word} {i j : BqInst} (hb : m.bq.get i = m.bq.get j)
    (hx : (sample b32 c m).v.get (bqSource i) = (sample b32 c m).v.get (bqSource j))
    (hn : isNaN ((sample b32 c m).v.get (bqDest i)) = false) :
    (sample b32 c m).v.get (bqDest i) = (sample b32 c m).v.get (bqDest j) ∧
      (sample b32 c m).bq.get i = (sample b32 c m).bq.get j := by
  obtain ⟨d, hi⟩ := sample_v_dest b32 c m i
  obtain ⟨d', hj⟩ := sample_v_dest b32 c m j
  have hy : (sample b32 c m).v.get (bqDest i) = (sample b32 c m).v.get (bqDest j) := by
    rw [hi] at hn
    rw [hi, hj, ← hb, ← hx, bqOutput_draw d' hn]
  exact ⟨hy, by rw [sample_bq_get, sample_bq_get, hb, hx, hy]⟩

/-! ### A run of requested operations -/

/-- A run that begins with a known step goes on from the state after it. -/
theorem run_of_step {s t : State} (h : step s = .next t) (k : Nat) : core.run (k + 1) s = core.run k t := by
  simp only [Host.Core.run, show core.step s = .next t from h]

/-- The request of an operation in the RUN phase, from a state with `BUSY = 0` (R94). -/
theorem step_request {s : State} {i : Instr} (hwf : i.wellFormed = true) (hr : s.ctrl.run = true)
    (hb : s.status.busy = false) (rest : List HostAction) :
    step { s with pending := scriptOp i ++ rest } =
      .next { s with dp := datapathOp b32 s.ctrl i s.dp, pending := rest, reply := .ack } := by
  have hstatus : { s.status with busy := false } = s.status := by rw [← hb]
  refine (stepRunsDecodedOperation _ _ rest i rfl (decode_encode hwf)).trans ((exec_eq_request hwf _).trans
    ((request_run (s := { s with pending := rest, reply := .ack }) hr).trans ?_))
  simp only [operate, setBusy, hstatus]

/-- The requests of a list of operations run them one after the other (R75). -/
theorem run_requests (i : Instr) (is : List Instr) {s : State} (hwf : ∀ j ∈ i :: is, j.wellFormed = true)
    (hr : s.ctrl.run = true) (hb : s.status.busy = false) (rest : List HostAction) :
    core.run (is.length + 1) { s with pending := (i :: is).flatMap scriptOp ++ rest } =
      .next { s with
        dp := (i :: is).foldl (fun m j => datapathOp b32 s.ctrl j m) s.dp, pending := rest, reply := .ack } := by
  induction is generalizing i s with
  | nil => exact run_of_step (step_request (hwf i List.mem_cons_self) hr hb rest) 0
  | cons j is ih =>
    obtain ⟨hi, his⟩ := List.forall_mem_cons.1 hwf
    rw [List.flatMap_cons, List.append_assoc, List.length_cons, run_of_step (step_request hi hr hb _)]
    exact ih j (s := { s with dp := datapathOp b32 s.ctrl i s.dp, reply := .ack }) his hr hb

theorem unrolledOps_wellFormed : ∀ i ∈ unrolledOps, i.wellFormed = true := by decide

/-- The eleven operations of `SAMPLE.UNROLLED` do what `SAMPLE` does, from `UPC = 0` (R208). -/
theorem foldl_unrolledOps (N : Numerics F) (c : Ctrl) {m : Datapath F} (h : m.upc = 0) :
    unrolledOps.foldl (fun n i => datapathOp N c i n) m = sample N c m := by
  have hupc : (unrolledOps.foldl (fun n i => datapathOp N c i n) m).upc = 0 :=
    List.foldlRecOn (motive := fun n => n.upc = 0) unrolledOps _ h fun n hn i _ => datapathOp_upc N c i n hn
  rw [sample_unrolled, ← hupc]
  rfl

/-! ### The values `SAMPLE` reads -/

/-- The two datapaths agree in the value registers `rs` and in everything that is no value register. -/
structure AgreeOn (rs : List VReg) (m n : Datapath F) : Prop where
  outside : n = { m with v := n.v }
  values : ∀ r ∈ rs, n.v.get r = m.v.get r

theorem Values.ext_get {v w : Values F} (h : ∀ r, v.get r = w.get r) : v = w := by
  obtain ⟨⟩ := v
  obtain ⟨⟩ := w
  rw [Values.mk.injEq]
  exact ⟨h .leftRaw, h .rightRaw, h .externalMpx, h .preL, h .preR, h .lpL, h .lpR, h .mono, h .diff, h .pilot,
    h .subcarrier, h .composite⟩

namespace AgreeOn

variable (N : Numerics F) (c : Ctrl) {rs : List VReg} {m n : Datapath F}

theorem eq_of_forall_mem (h : AgreeOn rs m n) (hrs : ∀ r, r ∈ rs) : n = m := by
  rw [h.outside, Values.ext_get fun r => h.values r (hrs r)]

/-- An operation that writes the register `r`, with a result that the registers `rs` determine, adds `r` to them. -/
theorem write {op : Datapath F → Datapath F} {r : VReg} (h : AgreeOn rs m n)
    (hframe : ∀ (k : Datapath F) (q : VReg), q ≠ r → (op k).v.get q = k.v.get q)
    (hout : op n = { op m with v := (op n).v }) (hr : (op n).v.get r = (op m).v.get r) :
    AgreeOn (r :: rs) (op m) (op n) := by
  refine ⟨hout, fun q hq => ?_⟩
  by_cases hqr : q = r
  · rw [hqr, hr]
  · rw [hframe n q hqr, hframe m q hqr, h.values q (List.mem_of_ne_of_mem hqr hq)]

/-- Only value registers tell the two apart. -/
theorem exists_values (h : AgreeOn rs m n) : ∃ w, n = { m with v := w } := ⟨n.v, h.outside⟩

/-! A unit operation whose operands are among the registers `rs` writes the same in both. -/

theorem bqProc (i : BqInst) (h : AgreeOn rs m n) (hi : bqSource i ∈ rs) :
    AgreeOn (bqDest i :: rs) (bqProc N i m) (bqProc N i n) := by
  obtain ⟨w, rfl⟩ := h.exists_values
  have hx : w.get (bqSource i) = m.v.get (bqSource i) := h.values _ hi
  exact h.write (fun k _ => bqProc_v_ne N i k) (by simp only [Machine.bqProc, hx]) (by simp only [bqProc_v_dest, hx])

theorem encMono (h : AgreeOn rs m n) (hl : .lpL ∈ rs) (hr : .lpR ∈ rs) :
    AgreeOn (.mono :: rs) (encMono N m) (encMono N n) := by
  obtain ⟨w, rfl⟩ := h.exists_values
  have hwl : w.lpL = m.v.lpL := h.values _ hl
  have hwr : w.lpR = m.v.lpR := h.values _ hr
  exact h.write (fun k _ => encMono_v_ne N k) rfl (by simp only [encMono_v, Values.get, hwl, hwr])

theorem encDiff (h : AgreeOn rs m n) (hl : .lpL ∈ rs) (hr : .lpR ∈ rs) :
    AgreeOn (.diff :: rs) (encDiff N m) (encDiff N n) := by
  obtain ⟨w, rfl⟩ := h.exists_values
  have hwl : w.lpL = m.v.lpL := h.values _ hl
  have hwr : w.lpR = m.v.lpR := h.values _ hr
  exact h.write (fun k _ => encDiff_v_ne N k) rfl (by simp only [encDiff_v, Values.get, hwl, hwr])

theorem oscSin (h : AgreeOn rs m n) : AgreeOn (.pilot :: rs) (oscSin N m) (oscSin N n) := by
  obtain ⟨w, rfl⟩ := h.exists_values
  exact h.write (fun k _ => oscSin_v_ne N k) rfl (by simp only [oscSin_pilot])

theorem oscHarm (k : BitVec 8) (h : AgreeOn rs m n) : AgreeOn (.subcarrier :: rs) (oscHarm N k m) (oscHarm N k n) := by
  obtain ⟨w, rfl⟩ := h.exists_values
  exact h.write (fun l _ => oscHarm_v_ne N k l) rfl (by simp only [oscHarm_subcarrier])

theorem encMix (h : AgreeOn rs m n) (hmono : .mono ∈ rs) (hdiff : .diff ∈ rs) (hpilot : .pilot ∈ rs)
    (hsub : .subcarrier ∈ rs) : AgreeOn (.composite :: rs) (encMix N c m) (encMix N c n) := by
  obtain ⟨w, rfl⟩ := h.exists_values
  have hwm : w.mono = m.v.mono := h.values _ hmono
  have hwd : w.diff = m.v.diff := h.values _ hdiff
  have hwp : w.pilot = m.v.pilot := h.values _ hpilot
  have hws : w.subcarrier = m.v.subcarrier := h.values _ hsub
  refine h.write (fun k _ => encMix_v_ne N c k) ?_ (by simp only [encMix_v, Values.get, stereoMix, hwm, hwd, hwp, hws])
  cases hs : c.stereo
  · simp only [encMix_mono N c _ hs]
  · simp only [encMix_stereo N c _ hs]

theorem encExt (h : AgreeOn rs m n) (hcomp : .composite ∈ rs) (hext : .externalMpx ∈ rs) :
    AgreeOn (.composite :: rs) (encExt N c m) (encExt N c n) := by
  obtain ⟨w, rfl⟩ := h.exists_values
  have hwc : w.composite = m.v.composite := h.values _ hcomp
  have hwe : w.externalMpx = m.v.externalMpx := h.values _ hext
  exact h.write (fun k _ => encExt_v_ne N c k) rfl (by simp only [encExt_v, Values.get, hwc, hwe])

theorem oscAdv (h : AgreeOn rs m n) : AgreeOn rs (oscAdv N m) (oscAdv N n) := by
  obtain ⟨w, rfl⟩ := h.exists_values
  exact ⟨rfl, h.values⟩

end AgreeOn

/-- `SAMPLE` reads the three inputs; what else it reads, one of its own operations has written before (R210). -/
theorem sample_eq_of_agreeOn (N : Numerics F) (c : Ctrl) {m n : Datapath F}
    (h : AgreeOn [.leftRaw, .rightRaw, .externalMpx] m n) : sample N c n = sample N c m := by
  have hpre := (h.bqProc N .preemphL (by decide)).bqProc N .preemphR (by decide)
  have hlow := (hpre.bqProc N .lowpassL (by decide)).bqProc N .lowpassR (by decide)
  have hsignals := (hlow.encMono N (by decide) (by decide)).encDiff N (by decide) (by decide)
  have hsines := (hsignals.oscSin N).oscHarm N 2
  have hmix := hsines.encMix N c (by decide) (by decide) (by decide) (by decide)
  have hall := (hmix.encExt N c (by decide) (by decide)).oscAdv N
  rw [sample_unrolled, sample_unrolled, hall.eq_of_forall_mem fun r => by cases r <;> decide]

/-! ## The statements of the family -/

/-- Settles O24: halving takes one off the exponent field, and the corner cases of the sum pass through it. -/
theorem encMonoHalvesSum : Obligations.EncMonoHalvesSum := by
  refine ⟨decode_encode (i := .encMono) rfl, fun s => ?_⟩
  intro sum mono
  refine ⟨request_run, exec_config (i := .encMono) rfl, value_fhalf _, fun hl hr => ?_, fun hf hl => ?_,
    fun hl hr => ?_⟩
  · have hsum : sum = 0x7F800000 := by simp only [sum, hl, hr, fadd_largest]
    exact (congrArg (fhalf _) hsum).trans (fhalf_inf _ (by decide))
  · have hsum : sum = posZero := by simp only [sum, hl, fadd_fneg_left _ hf]
    exact (congrArg (fhalf _) hsum).trans (fhalf_zero _ (by decide))
  · have hsum : sum = negZero := by
      simp only [sum, hl, hr]
      exact fadd_zeros _ (by decide) (by decide)
    exact (congrArg (fhalf _) hsum).trans (fhalf_zero _ (by decide))

/-- Settles O25: a finite datum less itself is `+0.0`, and the largest number less its opposite is the sum of two. -/
theorem encDiffHalvesDifference : Obligations.EncDiffHalvesDifference := by
  refine ⟨decode_encode (i := .encDiff) rfl, fun s => ?_⟩
  intro diff
  refine ⟨request_run, exec_config (i := .encDiff) rfl, fun hf he => ?_, fun hl hr => ?_⟩
  · exact (congrArg (fun x => fhalf _ (fsub _ _ x)) he.symm).trans (fhalf_fsub_self _ _ hf)
  · have hfneg : fneg 0xFF7FFFFF = 0x7F7FFFFF := by decide
    simp only [diff, hl, hr, fsub_eq, hfneg, fadd_largest]
    exact fhalf_inf _ (by decide)

/-- Settles O26: a NaN passes through the sums and products, and a zero `diff` makes the third term a zero. -/
theorem encMixFollowsFormula : Obligations.EncMixFollowsFormula := by
  refine ⟨decode_encode (i := .encMix) rfl, fun s => ?_⟩
  intro d t1 t2 m t3 u
  refine ⟨fun hr hs => ?_, fun hr hs => ?_, exec_config (i := .encMix) rfl, fun hn => ?_, fun hz hf hn hne => ?_⟩
  · rw [exec_encMix, request_run hr, operate]
    simp only [setBusy, encMix_stereo b32 s.ctrl _ hs]
    rfl
  · rw [exec_encMix, request_run hr, operate]
    simp only [setBusy, encMix_mono b32 s.ctrl _ hs]
  · exact isNaN_stereoMix d (by simpa [or_assoc] using hn)
  · have ht3 : isZero t3 = true := isZero_fmul_left _ (isZero_fmul_left _ hz hf) (by decide)
    exact fadd_zero_right_of_ne _ hn hne ht3

/-- Settles O27: with `EXT_EN = 0` the sum is one with `+0.0`. -/
theorem encExtAddsExternal : Obligations.EncExtAddsExternal := by
  refine ⟨decode_encode (i := .encExt) rfl, fun s => ?_, fun c m => ?_⟩
  · intro e composite
    refine ⟨request_run, exec_config (i := .encExt) rfl, fun he hn => ?_,
      fun hc hf => (fadd_roundedFrom _ hc hf).roundsTo⟩
    have hzero : e = posZero := by simp only [e, he, Bool.false_eq_true, if_false, posZero]
    have hcomp : composite = fadd s.dp.draws s.dp.v.composite posZero := congrArg (fadd _ _) hzero
    rw [hcomp]
    split
    next hneg =>
      rw [hneg]
      exact fadd_zeros _ (by decide) (by decide)
    next hne => exact fadd_zero_right_of_ne _ hn hne (by decide)
  · rw [encExt_v]
    rfl

/-- Settles O29: a finite lowpass output had a finite preemphasis output, so no NaN tells the channels apart. -/
theorem equalChannelsStayEqual : Obligations.EqualChannelsStayEqual := by
  intro s hr hraw hpre hlow
  refine ⟨_, (exec_sample s).trans (request_run hr), fun hf => ?_⟩
  rw [operate_dp] at hf ⊢
  have hx : (sample b32 s.ctrl s.dp).v.get .leftRaw = (sample b32 s.ctrl s.dp).v.get .rightRaw := by
    have hkeep (r : VReg) := datapathOp_v_ne b32 s.ctrl s.dp (i := .sample) (r := r)
    exact (hkeep .leftRaw (by decide)).trans (hraw.trans (hkeep .rightRaw (by decide)).symm)
  have hpreL : isFinite ((sample b32 s.ctrl s.dp).v.get .preL) = true := by
    obtain ⟨d, hy⟩ := sample_v_dest b32 s.ctrl s.dp .lowpassL
    by_contra hc
    have hnot := isFinite_bqOutput_input d (s.dp.bq.get .lowpassL) (Bool.eq_false_of_not_eq_true hc)
    exact absurd (hf.symm.trans ((congrArg isFinite hy).trans hnot)) (by decide)
  obtain ⟨hv, hb⟩ := sample_biquads_eq s.ctrl (i := .preemphL) (j := .preemphR) hpre hx
    (isNaN_of_finite hpreL)
  obtain ⟨hv', hb'⟩ := sample_biquads_eq s.ctrl (i := .lowpassL) (j := .lowpassR) hlow hv (isNaN_of_finite hf)
  obtain ⟨d, hdiff⟩ := sample_diff b32 s.ctrl s.dp
  refine ⟨hb, hb', hv, hv', ?_⟩
  rw [hdiff, ← show _ = (sample b32 s.ctrl s.dp).v.lpR from hv']
  exact fhalf_fsub_self _ _ hf

/-- Settles O30: the sequencer unrolled. -/
theorem sampleFollowsElevenSteps : Obligations.SampleFollowsElevenSteps := by
  refine ⟨decode_encode (i := .sample) rfl, fun s => ⟨fun hr => ?_, exec_config (i := .sample) rfl⟩⟩
  rw [exec_sample, request_run hr, operate]
  simp only [setBusy, sample_unrolled]

/-- Settles O31: each request runs its operation's datapath function, and the eleven make `SAMPLE`. -/
theorem sampleEqualsUnrolled : Obligations.SampleEqualsUnrolled := by
  intro s rest ⟨hbusy, hupc⟩ hr
  have hunrolled := run_requests _ _ unrolledOps_wellFormed hr hbusy rest
  rw [show _ :: _ = unrolledOps from rfl, foldl_unrolledOps b32 s.ctrl hupc] at hunrolled
  exact ⟨_, run_requests .sample [] (by decide) hr hbusy rest, hunrolled, rfl⟩

/-- Settles O32: two states that differ in `V[3..11]` agree on what `SAMPLE` reads. -/
theorem sampleIgnoresStaleValues : Obligations.SampleIgnoresStaleValues := by
  intro s v hleft hright hext hr
  have hagree : AgreeOn [.leftRaw, .rightRaw, .externalMpx] s.dp { s.dp with v := v } :=
    ⟨rfl, by simpa [Values.get] using ⟨hleft, hright, hext⟩⟩
  refine ⟨_, request_run hr, (request_run (s := { s with dp.v := v }) hr).trans ?_⟩
  simp only [operate, setBusy, sample_eq_of_agreeOn b32 s.ctrl hagree]

end Sys2Proof.Machine
end

section
/-! The configuration in the RUN phase (R240, R241, R275): what an operation leaves of it; then the statement of the
family. -/

namespace Sys2Proof.Machine

theorem SameCoefs.symm {b c : Biquad Word} (h : SameCoefs b c) : SameCoefs c b := by
  obtain ⟨hb0, hb1, hb2, ha1, ha2⟩ := h
  exact ⟨hb0.symm, hb1.symm, hb2.symm, ha1.symm, ha2.symm⟩

theorem SameConfig.refl (s : State) : SameConfig s s := ⟨rfl, rfl, rfl, fun _ => .refl _⟩

/-- No operation changes the phase of the core or its configuration, whether it runs or is refused (R35, R41, R241). -/
theorem exec_sameConfig {i : Instr} {s t : State} (h : exec i s = .next t) :
    t.ctrl.run = s.ctrl.run ∧ SameConfig s t := by
  rcases exec_next h with ⟨-, -, rfl⟩ | ⟨-, -, rfl⟩ | ⟨-, rfl⟩
  · exact ⟨rfl, rfl, rfl, (datapathOp_phaseInc b32 s.ctrl i s.dp).symm,
      fun j => (datapathOp_sameCoefs b32 s.ctrl i s.dp j).symm⟩
  · exact ⟨rfl, .refl s⟩
  · exact ⟨rfl, .refl s⟩

/-- Settles O40: in the RUN phase the bus stores in value registers only, and no operation writes the configuration. -/
theorem runPhaseFreezesConfiguration : Obligations.RunPhaseFreezesConfiguration := by
  intro s t hr hreset h
  rcases step_cases h with ⟨-, rfl⟩ | ⟨a, rest, -, rfl⟩ | ⟨rest, hp, -⟩ | ⟨a, w, rest, -, hw⟩
  · exact ⟨hr, .refl s⟩
  · exact ⟨hr, .refl s⟩
  · exact absurd (by rw [hp, List.head?_cons]) hreset
  · rcases hw with ⟨-, i, -, hi⟩ | ⟨f, rfl⟩ | ⟨r, rfl⟩ | ⟨hc, -⟩
    · obtain ⟨hrun, hconfig⟩ := exec_sameConfig hi
      exact ⟨hrun.trans hr, hconfig⟩
    · exact ⟨hr, .refl s⟩
    · exact ⟨hr, .refl s⟩
    · exact absurd (hr.symm.trans hc) (by decide)

end Sys2Proof.Machine
end

section
/-! Reset, the boot sequence and the steps a host may skip (R260, R265, R281): a reset from any state, a run of
configuration writes, `SAMPLE` without coefficients; then the statements of the family. -/

namespace Sys2Proof.Machine

open B32

/-! ### Every action is completed -/

/-- An operation answers a next state, whether it runs or is refused (R281). -/
theorem exec_completes (i : Instr) (s : State) : ∃ t, exec i s = .next t := by
  rcases exec_cases i s with ⟨-, op, h⟩ | ⟨f, h⟩
  · exact ⟨_, h⟩
  · exact ⟨_, h⟩

/-- A bus write is always completed, a refused one too (R234). -/
theorem busWrite_completes (a : BusAddr) (w : Word) (s : State) : ∃ t, busWrite a w s = .next t := by
  rcases busWrite_cases a w s with ⟨-, i, -, hb⟩ | ⟨f, hb⟩ | ⟨r, hb⟩ | ⟨-, r, -, hb⟩
  · exact hb ▸ exec_completes i s
  · exact ⟨_, hb⟩
  · exact ⟨_, hb⟩
  · exact ⟨_, hb⟩

/-! ### Reset -/

/-- What a reset leaves, the host's list and the count of draws, is read in no register (R260). -/
theorem readReg_resetCore (r : BusReg) (s : State) : readReg r (resetCore s) = readReg r State.reset := by
  cases r <;> rfl

/-! ### Configuration writes -/

/-- The state after the host's oldest access has stored the word `p.2` in the register `p.1`. -/
def afterStore (s : State) (p : BusReg × Word) : State :=
  storeReg p.1 p.2 { s with pending := s.pending.tail, reply := .ack }

/-- A script line that writes a locked register stores its word in the CONFIG phase (R67, R108). -/
theorem step_scriptWr_config {p : BusReg × Word} (hl : lockedReg p.1 = true) {s : State} (hr : s.ctrl.run = false)
    {rest : Script} (h : s.pending = scriptWr p.1 p.2 ++ rest) : step s = .next (afterStore s p) := by
  have hreg : busReg (busAddrOf p.1) = p.1 := busReg_busAddrOf p.1
  have htail : s.pending.tail = rest := congrArg List.tail h
  rw [step_write h, busWrite_locked (hreg.symm ▸ hl), hreg, afterStore, htail]
  exact lockedWrite_config (s := { s with pending := rest, reply := .ack }) hr p.2

/-- In the CONFIG phase the writes to locked registers other than `CTRL` are all stored, one per step (R31, R67). -/
theorem run_scriptWrs_config (ps : List (BusReg × Word)) (hps : ∀ p ∈ ps, lockedReg p.1 = true ∧ p.1 ≠ .ctrl)
    {s : State} (hr : s.ctrl.run = false) {rest : Script}
    (h : s.pending = ps.flatMap (fun p => scriptWr p.1 p.2) ++ rest) (k : Nat) :
    core.run (ps.length + k) s = core.run k (ps.foldl afterStore s) := by
  induction ps generalizing s with
  | nil => exact congrArg (core.run · s) (Nat.zero_add k)
  | cons p ps ih =>
    obtain ⟨⟨hl, hne⟩, hps⟩ := List.forall_mem_cons.1 hps
    rw [List.flatMap_cons, List.append_assoc] at h
    have hctrl : (afterStore s p).ctrl.run = false := by rwa [afterStore, storeReg_ctrl_of_ne _ _ _ hne]
    have hpending : (afterStore s p).pending = ps.flatMap (fun p => scriptWr p.1 p.2) ++ rest := by
      rw [afterStore, storeReg_pending, h]
      rfl
    rw [List.length_cons, Nat.add_right_comm, run_of_step (step_scriptWr_config hl hr h)]
    exact ih hps hctrl hpending

/-- The five coefficient registers of a biquad with the words of a set (R41). -/
def coefStores (i : BqInst) (c : Coefs Word) : List (BusReg × Word) :=
  [(.bq i .b0, c.b0), (.bq i .b1, c.b1), (.bq i .b2, c.b2), (.bq i .a1, c.a1), (.bq i .a2, c.a2)]

/-- What the boot sequence stores before it writes `CTRL` (R265, steps 1 and 2). -/
def bootStores (inc : Word) (c0 c1 c2 c3 : Coefs Word) : List (BusReg × Word) :=
  (.phaseInc, inc) :: (coefStores .preemphL c0 ++ coefStores .preemphR c1 ++ coefStores .lowpassL c2 ++
    coefStores .lowpassR c3)

/-- The word of `CTRL` that `START` writes (R109). -/
def startWord (stereo extEn : Bool) : Word :=
  BitVec.zeroExtend 32 (BitVec.ofBool extEn ++ BitVec.ofBool stereo ++ (1 : BitVec 1))

/-- `START` sets the mode bits and `RUN` (R31, R109). -/
theorem Ctrl.written_startWord (stereo extEn : Bool) (c : Ctrl) :
    c.written (startWord stereo extEn) = { run := true, stereo := stereo, extEn := extEn } := by
  cases c
  cases stereo <;> cases extEn <;> simp [Ctrl.written, startWord]

theorem bootStores_locked (inc : Word) (c0 c1 c2 c3 : Coefs Word) :
    ∀ p ∈ bootStores inc c0 c1 c2 c3, lockedReg p.1 = true ∧ p.1 ≠ .ctrl := by
  simp [bootStores, coefStores, lockedReg]

/-- The state the boot sequence leads to from reset: its stores one after the other, `CTRL` last. -/
def afterBoot (inc : Word) (c0 c1 c2 c3 : Coefs Word) (stereo extEn : Bool) : State :=
  afterStore ((bootStores inc c0 c1 c2 c3).foldl afterStore
    { State.reset with pending := scriptBoot inc c0 c1 c2 c3 stereo extEn }) (.ctrl, startWord stereo extEn)

/-- The 22 writes of the boot sequence are all stored (R265). -/
theorem run_scriptBoot (inc : Word) (c0 c1 c2 c3 : Coefs Word) (stereo extEn : Bool) :
    core.run 22 { State.reset with pending := scriptBoot inc c0 c1 c2 c3 stereo extEn } =
      .next (afterBoot inc c0 c1 c2 c3 stereo extEn) :=
  (run_scriptWrs_config _ (bootStores_locked inc c0 c1 c2 c3) rfl (rest := scriptStart stereo extEn) rfl 1).trans
    (run_of_step (step_scriptWr_config (p := (.ctrl, startWord stereo extEn)) rfl rfl (rest := []) rfl) 0)

/-! ### `SAMPLE` without coefficients -/

/-- With zero coefficients a finite input leaves a zero in every filter's destination (R175, R207). -/
theorem isZero_sample_dest (c : Ctrl) {m : Datapath Word}
    (hb : ∀ i, SameCoefs (m.bq.get i) (.const posZero) ∧ FiniteHistory (m.bq.get i))
    (hleft : isFinite m.v.leftRaw = true) (hright : isFinite m.v.rightRaw = true) (i : BqInst) :
    isZero ((sample b32 c m).v.get (bqDest i)) = true := by
  have hfilter (j : BqInst) (hx : isFinite ((sample b32 c m).v.get (bqSource j)) = true) :
      isZero ((sample b32 c m).v.get (bqDest j)) = true := by
    obtain ⟨d, hy⟩ := sample_v_dest b32 c m j
    exact hy ▸ (bqOutput_zeroCoefs d (hb j).1 hx (hb j).2).1
  have hraw (r : VReg) := datapathOp_v_ne b32 c m (i := .sample) (r := r)
  have hpreL := hfilter .preemphL ((congrArg isFinite (hraw .leftRaw (by decide))).trans hleft)
  have hpreR := hfilter .preemphR ((congrArg isFinite (hraw .rightRaw (by decide))).trans hright)
  cases i with
  | preemphL => exact hpreL
  | preemphR => exact hpreR
  | lowpassL => exact hfilter .lowpassL (isFinite_of_zero hpreL)
  | lowpassR => exact hfilter .lowpassR (isFinite_of_zero hpreR)

/-- Half a zero is a zero (R124). -/
theorem isZero_fhalf (d : Nat) {a : Word} (h : isZero a = true) : isZero (fhalf d a) = true := by
  rwa [fhalf_zero d h]

/-- With both channels zeros the sum and the difference signal are zeros (R201, R202). -/
theorem isZero_sample_mono_diff (c : Ctrl) {m : Datapath Word} (hl : isZero (sample b32 c m).v.lpL = true)
    (hr : isZero (sample b32 c m).v.lpR = true) :
    isZero (sample b32 c m).v.mono = true ∧ isZero (sample b32 c m).v.diff = true := by
  obtain ⟨d, hmono⟩ := sample_mono b32 c m
  obtain ⟨d', hdiff⟩ := sample_diff b32 c m
  rw [hmono, hdiff]
  exact ⟨isZero_fhalf _ (isZero_fadd d hl hr), isZero_fhalf _ (isZero_fsub d' hl hr)⟩

/-- The pilot's share of the stereo mix is at most 0.09, so it is finite (R203). -/
theorem isFinite_fmul_c009 (d : Nat) {p : Word} (hp : units p ≤ units 0x3F800000) :
    isFinite (fmul d p c009) = true := by
  have hone : units 0x3F800000 = 2 ^ 149 := by decide
  have hle : units p * units c009 ≤ magUnits (mag c009) * 2 ^ 149 := by
    rw [mul_comm]
    exact Nat.mul_le_mul_left _ (hone ▸ hp)
  rw [fmul_finite d (isFinite_of_units_le (by decide) hp) (by decide), isFinite_iff, mag_pack _ (roundMag_lt _ _)]
  exact (roundMag_le_of_le (by decide) hle).trans_lt (by decide)

/-- Without a sum and a difference signal only the pilot is in the stereo mix (R203). -/
theorem stereoMix_zero_signals (d : Nat) {v : Values Word} (hmono : isZero v.mono = true) (hdiff : isZero v.diff = true)
    (hp : units v.pilot ≤ units 0x3F800000) (hs : isFinite v.subcarrier = true) :
    isFinite (stereoMix b32 d v) = true ∧ value (stereoMix b32 d v) = value (fmul (d + 1) v.pilot c009) := by
  have ht1 := isZero_fmul_left d hmono (b := c045) (by decide)
  have ht3 := isZero_fmul_left (d + 3) (isZero_fmul_left (d + 2) hdiff hs) (b := c045) (by decide)
  obtain ⟨hu, hvu⟩ := value_fadd_zero_left (d + 4) ht1 (isFinite_fmul_c009 (d + 1) hp)
  obtain ⟨hmix, hvmix⟩ := value_fadd_zero_right (d + 5) hu ht3
  exact ⟨hmix, hvmix.trans hvu⟩

/-- Twice a legal phase is finite, so its sine is too. -/
theorem isFinite_sample_subcarrier (c : Ctrl) {m : Datapath Word} (hp : PhaseLegal m.phase) :
    isFinite (sample b32 c m).v.subcarrier = true := by
  obtain ⟨d, hs⟩ := sample_subcarrier b32 c m
  rw [hs]
  exact isFinite_fsin (fmul_fofnat_two d hp.expField_lt).1

/-- The summand of `composite` beside the external sample, with zero coefficients (R203, R206, R265). -/
theorem sample_composite_zeroCoefs (c : Ctrl) {m : Datapath Word} (hp : PhaseLegal m.phase)
    (hb : ∀ i, SameCoefs (m.bq.get i) (.const posZero) ∧ FiniteHistory (m.bq.get i))
    (hleft : isFinite m.v.leftRaw = true) (hright : isFinite m.v.rightRaw = true) :
    ∃ mix d d',
      (sample b32 c m).v.composite = fadd d mix (if c.extEn = true then m.v.externalMpx else posZero) ∧
      isFinite mix = true ∧
      (c.stereo = true → value mix = value (fmul d' (sample b32 c m).v.pilot c009)) ∧
      (c.stereo = false → isZero mix = true) := by
  obtain ⟨hmono, hdiff⟩ := isZero_sample_mono_diff c (isZero_sample_dest c hb hleft hright .lowpassL)
    (isZero_sample_dest c hb hleft hright .lowpassR)
  have hpilot : units (sample b32 c m).v.pilot ≤ units 0x3F800000 :=
    sample_pilot b32 c m ▸ units_fsin_le hp.1
  obtain ⟨d, d', hcomp⟩ := sample_composite b32 c m
  refine ⟨_, d, d' + 1, hcomp, ?_⟩
  cases hst : c.stereo
  · exact ⟨isFinite_of_zero hmono, fun h => Bool.noConfusion h, fun _ => hmono⟩
  · obtain ⟨hfin, hval⟩ := stereoMix_zero_signals d' hmono hdiff hpilot (isFinite_sample_subcarrier c hp)
    exact ⟨hfin, fun _ => hval, fun h => Bool.noConfusion h⟩

/-! ## The statements of the family -/

/-- Settles O60: the 22 stores one after the other; the phase `+0.0` is its own sine and stays; without coefficients the
filters give zeros, and of the mix the pilot is left. -/
theorem bootScriptConfigures : Obligations.BootScriptConfigures := by
  refine ⟨fun inc c0 c1 c2 c3 stereo extEn => ?_, fun s hr hphase hinc => ?_, fun s hr hp hb hleft hright => ?_⟩
  · refine ⟨_, run_scriptBoot inc c0 c1 c2 c3 stereo extEn, rfl, Ctrl.written_startWord stereo extEn _,
      fun f => ?_, rfl, rfl, fun i => ?_⟩
    · exact reset_noFlag f
    · cases i <;> rfl
  · refine ⟨_, (exec_sample s).trans (request_run hr), ?_⟩
    obtain ⟨d, hd⟩ := sample_phase b32 s.ctrl s.dp
    rw [operate_dp, sample_pilot, sample_phaseInc, hd, hphase, hinc]
    exact ⟨fsin_zero (by decide), phaseAfter_posZero d phaseLegal_zero (by decide), rfl⟩
  · intro e
    obtain ⟨mix, d, d', hcomp, hfin, hstereo, hmono⟩ := sample_composite_zeroCoefs s.ctrl hp hb hleft hright
    refine ⟨_, mix, d, d', (exec_sample s).trans (request_run hr), ?_⟩
    rw [operate_dp]
    refine ⟨hcomp, hfin, hstereo, hmono, fun hz he => ?_⟩
    have hmix : isZero mix = true := by
      cases hst : s.ctrl.stereo
      · exact hmono hst
      · have hpilot := hz.resolve_left (by simp [hst])
        rw [← value_eq_zero_iff, hstereo hst, value_eq_zero_iff]
        exact isZero_fmul_left d' hpilot (by decide)
    exact hcomp.trans (fadd_zero_left_eq d hmix he)

/-- Settles O44: an idle core, a read and a reset each have a next state, and a write is always completed. -/
theorem everyStepCompletes : Obligations.EveryStepCompletes := by
  intro s
  cases hp : s.pending with
  | nil => exact ⟨_, step_idle hp⟩
  | cons act rest =>
    rw [step_action hp]
    cases act with
    | read a => exact ⟨_, rfl⟩
    | write a w => exact busWrite_completes a w _
    | reset => exact ⟨_, rfl⟩

/-- Settles O48: what a reset leaves is no register. -/
theorem resetFromAnyState : Obligations.ResetFromAnyState := fun _ _ hp =>
  ⟨_, step_action hp, fun a => readReg_resetCore (busReg a) _, reset_idle, rfl, rfl, rfl⟩

end Sys2Proof.Machine
end
